-- ==== Sys2Proof/Word.lean ====
section
/-! DEFINITION. The two word types of the machine (00_scope.md R4: 8-bit data, 16-bit sp, pc and addresses). -/

namespace Sys2Proof

/-- A register, a memory cell, an opcode (00_scope.md R4). -/
abbrev Byte := BitVec 8

/-- `sp`, `pc`, an address, a 16-bit operand (00_scope.md R4; 20_memory.md R31, decision D15). -/
abbrev Word := BitVec 16

end Sys2Proof
end

