-- ==== Sys2Proof/Machine/Flags.lean ====
section
/-! DEFINITION. The flag byte (10_state.md R14, R16) and the flag logic of the 8-bit ALU (43_alu8.md R95). -/

namespace Sys2Proof.Machine

/-- The four flags (10_state.md R14). -/
inductive Flag where
  /-- ZERO. -/
  | z
  /-- SUBTRACTION. -/
  | n
  /-- HALFCARRY. -/
  | h
  /-- CARRY. -/
  | c
  deriving DecidableEq, Repr

/-- The bit of the flag byte a flag stands in (10_state.md R14). -/
def Flag.bit : Flag → Nat
  | .z => 7
  | .n => 6
  | .h => 5
  | .c => 4

/-- The mask of a flag (10_state.md R14). -/
def Flag.mask : Flag → Byte
  | .z => 0x80#8
  | .n => 0x40#8
  | .h => 0x20#8
  | .c => 0x10#8

/-- The mask that keeps the other seven bits (10_state.md R16). -/
def Flag.keep : Flag → Byte
  | .z => 0x7F#8
  | .n => 0xBF#8
  | .h => 0xDF#8
  | .c => 0xEF#8

/-- Reading a flag is "a pure bit test" (10_state.md R16). -/
def readFlag (x : Flag) (f : Byte) : Bool := f.getLsbD x.bit

/-- Writing one flag: `f <- (f & keep) | (v << bit)` (10_state.md R16). -/
def writeFlag (x : Flag) (v : Bool) (f : Byte) : Byte :=
  (f &&& x.keep) ||| ((BitVec.ofBool v).setWidth 8 <<< x.bit)

/-- The result of an xor (43_alu8.md R95). -/
def aluXor (p q : Byte) : Byte := p ^^^ q

/-- The result of a decrement, modulo 2^8 (43_alu8.md R94, R95). -/
def aluDec (p : Byte) : Byte := p - 1#8

/-- The half-carry of a decrement: `(p & 0x0F) = 0x00` (43_alu8.md R95; the formula counts, 90_conflicts.md C4). -/
def decHalfCarry (p : Byte) : Bool := (p &&& 0x0F#8) == 0x00#8

/-- The flags of an xor with result `r`: Z from the result, N, H and C cleared (43_alu8.md R95). -/
def xorFlags (r f : Byte) : Byte :=
  writeFlag .c false (writeFlag .h false (writeFlag .n false (writeFlag .z (r == 0x00#8) f)))

/-- The flags of a decrement of `p` with result `r`: Z from the result, N set, H the borrow, C untouched
(43_alu8.md R95). -/
def decFlags (p r f : Byte) : Byte :=
  writeFlag .h (decHalfCarry p) (writeFlag .n true (writeFlag .z (r == 0x00#8) f))

end Sys2Proof.Machine
end

