-- ==== Sys2Proof/Machine/State.lean ====
section
/-! DEFINITION. The machine state: "the pair (register file, cartridge memory) plus one status latch" (10_state.md R10),
the reasons a step can stop, and the power-up state. "There is no other state" (R10). -/

namespace Sys2Proof.Machine

/-- The register file, "all processor-visible state" (10_state.md R10, R11, R14, R18, R19). The pairs bc, de and hl are
views of it, not fields (R13). -/
structure RegisterFile where
  a : Byte
  b : Byte
  c : Byte
  d : Byte
  e : Byte
  h : Byte
  l : Byte
  /-- The flag byte: Z, N, H, C in bits 7 to 4, bits 3 to 0 always zero (R14, R15). -/
  f : Byte
  sp : Word
  /-- The address of the next instruction byte to fetch (R19). -/
  pc : Word
  deriving DecidableEq, Repr

/-- The variant tag of a cartridge memory: "a closed set of tagged variants" with one member (20_memory.md R55). -/
inductive Variant where
  | romOnly
  deriving DecidableEq, Repr

/-- The cartridge memory: an image of `length` bytes and a variant tag (10_state.md R22). The image is held as the cells
whose byte is not zero, offsets rising; an offset below `length` with no cell holds 0x00, and an offset at or above
`length` does not exist (DESIGN CHOICE of representation, log entry 3: every image has exactly one such form). -/
structure Memory where
  variant : Variant
  length : Nat
  cells : List Host.Cell
  deriving DecidableEq, Repr

/-- The ExecutionErrors (60_exceptions.md R101): every one is fatal and final (R113). -/
inductive Fault where
  /-- X1, raised by a step whose opcode byte has no table entry, with the opcode and the address it was fetched from
  (R109). Safe: the spec's own hard stop. -/
  | unimplementedOpcode (op : Byte) (pc0 : Word)
  /-- X2, raised by every memory write (R110, 20_memory.md R34). Safe: the spec's own error. No instruction writes. -/
  | writeToReadOnly (addr : Word) (v : Byte)
  /-- X3, raised by a read at or above the image length (R111, decision D4, log entry 4). Safe: it stops where the source
  is silent. -/
  | readOutOfRange (addr : Word)
  deriving DecidableEq, Repr

/-- Instructions without a meaning. -/
inductive Refusal where
  /-- Raised by an arm of `exec` that has no meaning yet. Safe: the machine stops. No arm raises it in this model. -/
  | notModelled (mnemonic : String)
  deriving DecidableEq, Repr

/-- The status latch (10_state.md R24; decision D10, log entry 11). -/
inductive Status where
  | running
  | faulted (cause : Fault)
  deriving DecidableEq, Repr

/-- The machine state (10_state.md R10). -/
structure State where
  regs : RegisterFile
  mem : Memory
  status : Status
  deriving DecidableEq, Repr

/-- "Power-up defaults (must be reproduced exactly)" (10_state.md R26). -/
def RegisterFile.powerUp : RegisterFile where
  a := 0x01#8
  b := 0x00#8
  c := 0x13#8
  d := 0x00#8
  e := 0xD8#8
  h := 0x01#8
  l := 0x4D#8
  f := 0x80#8
  sp := 0xFFFE#16
  pc := 0x0100#16

/-- `PowerUp(cart)`: the register file at its power-up values, the given cartridge memory, status Running
(70_reset_and_hazards.md R125). -/
def State.powerUp (m : Memory) : State where
  regs := RegisterFile.powerUp
  mem := m
  status := .running

/-- A cartridge memory with no image: no address exists. -/
def Memory.absent : Memory where
  variant := .romOnly
  length := 0
  cells := []

/-- The machine at power-up with no image loaded. DESIGN CHOICE, safe: the spec's power-up takes the cartridge memory as
an argument (R125), and the constant the interface asks for names no image; log entries 1 and 2. -/
def State.reset : State := State.powerUp Memory.absent

end Sys2Proof.Machine
end

