-- ==== Sys2Proof/Machine/Memory.lean ====
section
/-! DEFINITION. The cartridge memory: its canonical form, the bytes of the image, the ROM-only address decoder
(20_memory.md R32, R34), and the two ways an image gets there from outside: all of it, or one byte. -/

namespace Sys2Proof.Machine

/-- The byte of an offset below the length that no cell lists (log entry 3). -/
def blankByte : Byte := 0x00#8

/-- The byte of a list of cells at offset `k`. -/
def cellByte : List Host.Cell → Nat → Byte
  | [], _ => blankByte
  | (a, v) :: rest, k => if a = k then v else cellByte rest k

/-- Setting the byte at offset `k`, keeping the offsets rising and no blank cell. -/
def setCell : List Host.Cell → Nat → Byte → List Host.Cell
  | [], k, v => if v = blankByte then [] else [(k, v)]
  | (a, w) :: rest, k, v =>
    if k < a then (if v = blankByte then (a, w) :: rest else (k, v) :: (a, w) :: rest)
    else if k = a then (if v = blankByte then rest else (k, v) :: rest)
    else (a, w) :: setCell rest k v

/-- The cells of consecutive bytes from offset `k` on. -/
def cellsFrom : Nat → List Byte → List Host.Cell
  | _, [] => []
  | k, v :: rest => if v = blankByte then cellsFrom (k + 1) rest else (k, v) :: cellsFrom (k + 1) rest

/-- Offsets rise from `lo`, stay below `len`, and no cell is blank. -/
def cellsWf : Nat → Nat → List Host.Cell → Bool
  | _, _, [] => true
  | lo, len, (a, v) :: rest => decide (lo ≤ a) && decide (a < len) && !(v == blankByte) && cellsWf (a + 1) len rest

/-- The canonical form: equal images are equal data. -/
def Memory.wf (m : Memory) : Bool := cellsWf 0 m.length m.cells

/-- The byte of the image at offset `k`; it means something below the length only. -/
def Memory.byteAt (m : Memory) (k : Nat) : Byte := cellByte m.cells k

/-- `read(address)` of the variant: the ROM-only address decoder is the identity; none where no such byte exists
(20_memory.md R32). A read changes nothing. -/
def Memory.read (m : Memory) (addr : Word) : Option Byte :=
  match m.variant with
  | .romOnly => if addr.toNat < m.length then some (m.byteAt addr.toNat) else none

/-- `write(address, byte)` of the variant: none where it fails. ROM-only "always fails fatally" (20_memory.md R34). -/
def Memory.write (m : Memory) (_addr : Word) (_v : Byte) : Option Memory :=
  match m.variant with
  | .romOnly => none

/-- The ROM-only cartridge memory of an image (10_state.md R22, 20_memory.md R38). -/
def Memory.ofImage (image : List Byte) : Memory where
  variant := .romOnly
  length := image.length
  cells := cellsFrom 0 image

/-- One byte of the image put in place from outside, the image growing to hold it. No instruction does this: it stands for
a part of `Load` (log entry 2). -/
def Memory.setByte (m : Memory) (k : Nat) (v : Byte) : Memory where
  variant := m.variant
  length := max m.length (k + 1)
  cells := setCell m.cells k v

end Sys2Proof.Machine
end

