-- ==== Sys2Proof/Config.lean ====
section
/-! DEFINITION. The three parameters the spec leaves open (00_scope.md R4; decisions D2, D3, D17). They are constants of
the machine, not state (10_state.md R25): each operation that reads one takes it as an argument, and a claim is for every
value of it. No instruction's effect reads one. -/

namespace Sys2Proof

/-- The open parameters, under the names 00_scope.md R4 gives them. -/
structure Params where
  /-- `LOGO[0..47]`, the 48-byte constant of the logo check (20_memory.md R45; 91 N1). -/
  logo : Fin 48 → Byte
  /-- `ROM_SIZE_BASE`, the declared size of code 0x00 (20_memory.md R40; 90_conflicts.md C2). -/
  romSizeBase : Nat
  /-- `CYCLES(op)`, read by no rule of the machine (70_reset_and_hazards.md R134; 91 N3). -/
  cycles : Byte → Nat

/-- The 48 bytes of 93 GK2, in address order. PRESUMED, unsafe: outside knowledge; log entry 8. -/
def defaultLogo : List Byte :=
  [0xCE#8, 0xED#8, 0x66#8, 0x66#8, 0xCC#8, 0x0D#8, 0x00#8, 0x0B#8, 0x03#8, 0x73#8, 0x00#8, 0x83#8, 0x00#8, 0x0C#8, 0x00#8, 0x0D#8] ++
  [0x00#8, 0x08#8, 0x11#8, 0x1F#8, 0x88#8, 0x89#8, 0x00#8, 0x0E#8, 0xDC#8, 0xCC#8, 0x6E#8, 0xE6#8, 0xDD#8, 0xDD#8, 0xD9#8, 0x99#8] ++
  [0xBB#8, 0xBB#8, 0x67#8, 0x63#8, 0x6E#8, 0x0E#8, 0xEC#8, 0xCC#8, 0xDD#8, 0xDC#8, 0x99#8, 0x9F#8, 0xBB#8, 0xB9#8, 0x33#8, 0x3E#8]

/-- The base cycle costs of 93 GK3 (JR NZ: the not-taken 8). PRESUMED, read by no rule; log entry 10. -/
def defaultCycles (op : Byte) : Nat :=
  if op = 0x20#8 then 8 else if op = 0x21#8 then 12 else if op = 0xC3#8 then 16 else 4

/-- The defaults the spec names for its parameters (D2, GK2, GK3). Only tests use them. -/
def Params.default : Params where
  logo i := defaultLogo.getD i 0#8
  romSizeBase := 32768
  cycles := defaultCycles

end Sys2Proof
end

