-- ==== Sys2Proof/Syntax.lean ====
section
/-! DEFINITION. The six instructions (30_encoding.md R64), the records of the instruction table (R68), and the written
forms of the assembler syntax (R69). -/

namespace Sys2Proof

/-- One constructor per row of the opcode table (30_encoding.md R64), with its operand as R63 assembles it. -/
inductive Instr where
  /-- 0x00 `NOP` (41_nop.md R90). -/
  | nop
  /-- 0x05 `DEC B` (43_alu8.md R97). -/
  | decB
  /-- 0x20 `JR NZ,r8`: `r8` is the byte B1, read as a signed displacement (42_jumps.md R92). -/
  | jrNZr8 (r8 : Byte)
  /-- 0x21 `LD HL,d16`: `d16 = B2 ‖ B1` (44_load16.md R100). -/
  | ldHLd16 (d16 : Word)
  /-- 0xAF `XOR A` (43_alu8.md R96). -/
  | xorA
  /-- 0xC3 `JP a16`: `a16 = B2 ‖ B1` (42_jumps.md R91). -/
  | jpA16 (a16 : Word)
  deriving DecidableEq, Repr

/-- "a tagged enum of operation kinds": the closed set of six effects a descriptor can carry (30_encoding.md R68). -/
inductive OpKind where
  | nop
  | decB
  | jrNZ
  | ldHL
  | xorA
  | jp
  deriving DecidableEq, Repr

/-- The fields of an instruction descriptor that the spec fixes: opcode, display mnemonic, total length in bytes and
effect (30_encoding.md R68). -/
structure Row where
  opcode : Byte
  mnemonic : String
  length : Nat
  effect : OpKind
  deriving DecidableEq, Repr

/-- An instruction descriptor: the fixed fields and the "base cycle cost (currently informational only, no scheduler
consumes it)" (30_encoding.md R68, 70_reset_and_hazards.md R134). -/
structure Descriptor extends Row where
  cycles : Nat
  deriving DecidableEq, Repr

/-- The written forms of the assembler syntax, with the operand as the programmer writes it (30_encoding.md R69). -/
inductive Written where
  | nop
  | decB
  /-- `JR NZ,e` with `e` a signed number. -/
  | jrNZ (e : Int)
  /-- `JR NZ,label`. -/
  | jrNZLabel (label : Nat)
  /-- `LD HL,nn`. -/
  | ldHL (nn : Nat)
  | xorA
  /-- `JP nn`. -/
  | jp (nn : Nat)
  deriving DecidableEq, Repr

end Sys2Proof
end

