-- ==== Sys2Proof/WellFormed.lean ====
section
/-! DEFINITION. What makes a table row, an instruction table and a written instruction well-formed. An `Instr` needs no
check: its operand types are exactly the operand fields of the encoding (30_encoding.md R61), so every term is encodable. -/

namespace Sys2Proof

/-- The number of operand bytes the effect fetches (40_engine_step.md R80). -/
def OpKind.operandBytes : OpKind → Nat
  | .nop => 0
  | .decB => 0
  | .jrNZ => 1
  | .ldHL => 2
  | .xorA => 0
  | .jp => 2

/-- A row's length is 1 plus the operand bytes its effect fetches (40_engine_step.md R80, R81). -/
def Row.wellFormed (r : Row) : Bool :=
  r.length == 1 + r.effect.operandBytes

/-- "no two entries share an opcode key" (30_encoding.md R65). -/
def keysDistinct (rows : List Row) : Bool :=
  decide (rows.map Row.opcode).Nodup

/-- The table invariants of 30_encoding.md R65, with the length contract of 40_engine_step.md R81 for each entry. -/
def tableWellFormed (rows : List Row) : Bool :=
  keysDistinct rows && rows.all Row.wellFormed && decide (rows.length ≤ 256)

/-- The displacement of `JR NZ,label` at address `at_`: `label - (address of this instruction + 2)` (30_encoding.md R69). -/
def labelDisplacement (at_ label : Nat) : Int :=
  (label : Int) - ((at_ : Int) + 2)

/-- `e` "a signed number -128..127" (30_encoding.md R69). -/
def displacementInRange (e : Int) : Bool :=
  decide (-128 ≤ e ∧ e ≤ 127)

/-- The operand ranges of the written forms, for an instruction placed at address `at_` (30_encoding.md R69). -/
def Written.wellFormed (at_ : Nat) : Written → Bool
  | .nop => true
  | .decB => true
  | .jrNZ e => displacementInRange e
  | .jrNZLabel label => displacementInRange (labelDisplacement at_ label)
  | .ldHL nn => decide (nn ≤ 0xFFFF)
  | .xorA => true
  | .jp nn => decide (nn ≤ 0xFFFF)

end Sys2Proof
end

