-- ==== Sys2Proof/Decode.lean ====
section
/-! DEFINITION. The instruction table (30_encoding.md R64), ONE decoder over any byte source (R60 to R67), and after it the
encoder and the assembler of R69. -/

namespace Sys2Proof

/-! ## Byte order -/

/-- `hi8 ‖ lo8` (00_scope.md R6). -/
def joinWord (hi lo : Byte) : Word := hi ++ lo

/-- `v[15:8]`. -/
def hiByte (v : Word) : Byte := v.extractLsb' 8 8

/-- `v[7:0]`. -/
def loByte (v : Word) : Byte := v.extractLsb' 0 8

/-! ## The instruction table -/

/-- The six rows of the opcode table (30_encoding.md R64). The mnemonics are the spec's own choice (decision D13). -/
def OpKind.row : OpKind → Row
  | .nop => ⟨0x00#8, "NOP", 1, .nop⟩
  | .decB => ⟨0x05#8, "DEC B", 1, .decB⟩
  | .jrNZ => ⟨0x20#8, "JR NZ,r8", 2, .jrNZ⟩
  | .ldHL => ⟨0x21#8, "LD HL,d16", 3, .ldHL⟩
  | .xorA => ⟨0xAF#8, "XOR A", 1, .xorA⟩
  | .jp => ⟨0xC3#8, "JP a16", 3, .jp⟩

/-- The instruction table: exactly these six live entries (30_encoding.md R64; decision D1, log entry 12). -/
def table : List Row :=
  [OpKind.nop.row, OpKind.decB.row, OpKind.jrNZ.row, OpKind.ldHL.row, OpKind.xorA.row, OpKind.jp.row]

/-- Building a table from a list: "constructing the table must reject duplicates" (30_encoding.md R65). -/
def buildTable (rows : List Row) : Option (List Row) :=
  if keysDistinct rows then some rows else none

/-- The lookup in a table, by the whole opcode byte (30_encoding.md R62, 40_engine_step.md R78). -/
def lookupIn (rows : List Row) (op : Byte) : Option Row :=
  rows.find? fun r => r.opcode == op

/-- The dispatch multiplexer: a row, or absent (40_engine_step.md R78). -/
def lookup (op : Byte) : Option Row := lookupIn table op

/-- The descriptor of a row, with the cycle cost `CYCLES(op)` (30_encoding.md R68, 70_reset_and_hazards.md R134). -/
def Row.descriptor (p : Params) (r : Row) : Descriptor :=
  { toRow := r, cycles := p.cycles r.opcode }

/-! ## The decoder -/

/-- A little-endian word from two single fetches, the first giving the low byte (40_engine_step.md R77, decision D7). -/
def fetchWord {σ ε : Type} (fetch : σ → Except ε (Byte × σ)) (s : σ) : Except ε (Word × σ) :=
  match fetch s with
  | .error e => .error e
  | .ok (lo, s₁) =>
    match fetch s₁ with
    | .error e => .error e
    | .ok (hi, s₂) => .ok (joinWord hi lo, s₂)

/-- The operand of an effect, fetched after the lookup has succeeded, in order of rising address (30_encoding.md R63). -/
def decodeOperand {σ ε : Type} (fetch : σ → Except ε (Byte × σ)) (k : OpKind) (s : σ) : Except ε (Instr × σ) :=
  match k with
  | .nop => .ok (.nop, s)
  | .decB => .ok (.decB, s)
  | .jrNZ => (fetch s).map fun x => (.jrNZr8 x.1, x.2)
  | .ldHL => (fetchWord fetch s).map fun x => (.ldHLd16 x.1, x.2)
  | .xorA => .ok (.xorA, s)
  | .jp => (fetchWord fetch s).map fun x => (.jpA16 x.1, x.2)

/-- The decoder over a byte source `fetch`: the opcode byte, its lookup, then the operand bytes (30_encoding.md R60, R62,
R66; 40_engine_step.md R75 stages 1 to 3). The machine runs it on its own fetches, `decode` on a list of bytes. -/
def decodeWith {σ ε : Type} (fetch : σ → Except ε (Byte × σ)) (unimplemented : Byte → ε) (s : σ) :
    Except ε (Instr × σ) :=
  match fetch s with
  | .error e => .error e
  | .ok (op, s₁) =>
    match lookup op with
    | none => .error (unimplemented op)
    | some row => decodeOperand fetch row.effect s₁

/-- Why a list of bytes is no instruction. -/
inductive DecodeError where
  /-- The list ends before the instruction does. -/
  | truncated
  /-- The first byte has no table entry (30_encoding.md R66). -/
  | unimplementedOpcode (op : Byte)
  deriving DecidableEq, Repr

/-- The next byte of a list. -/
def popByte : List Byte → Except DecodeError (Byte × List Byte)
  | [] => .error .truncated
  | b :: rest => .ok (b, rest)

/-- The decoder on bytes at rising addresses: the instruction and the bytes after it. -/
def decode (bytes : List Byte) : Except DecodeError (Instr × List Byte) :=
  decodeWith popByte .unimplementedOpcode bytes

/-! ## The encoder -/

/-- The bytes of an instruction at rising addresses (30_encoding.md R61, R64, R69). -/
def encode : Instr → List Byte
  | .nop => [0x00#8]
  | .decB => [0x05#8]
  | .jrNZr8 r8 => [0x20#8, r8]
  | .ldHLd16 d16 => [0x21#8, loByte d16, hiByte d16]
  | .xorA => [0xAF#8]
  | .jpA16 a16 => [0xC3#8, loByte a16, hiByte a16]

/-- The operation kind an instruction carries out. -/
def Instr.kind : Instr → OpKind
  | .nop => .nop
  | .decB => .decB
  | .jrNZr8 _ => .jrNZ
  | .ldHLd16 _ => .ldHL
  | .xorA => .xorA
  | .jpA16 _ => .jp

/-- The total length in bytes, opcode and operands (30_encoding.md R60). -/
def Instr.length (i : Instr) : Nat := 1 + i.kind.operandBytes

/-- The descriptor the step hands to the host for this instruction (40_engine_step.md R75 stage 5). -/
def Instr.descriptor (p : Params) (i : Instr) : Descriptor := i.kind.row.descriptor p

/-! ## The assembler -/

/-- The instruction of a written form placed at address `at_`: none where an operand is out of its range
(30_encoding.md R69; decision D13, log entry 19). -/
def assemble (at_ : Nat) (w : Written) : Option Instr :=
  if w.wellFormed at_ then
    match w with
    | .nop => some .nop
    | .decB => some .decB
    | .jrNZ e => some (.jrNZr8 (BitVec.ofInt 8 e))
    | .jrNZLabel label => some (.jrNZr8 (BitVec.ofInt 8 (labelDisplacement at_ label)))
    | .ldHL nn => some (.ldHLd16 (BitVec.ofNat 16 nn))
    | .xorA => some .xorA
    | .jp nn => some (.jpA16 (BitVec.ofNat 16 nn))
  else none

/-- The written form of an instruction (30_encoding.md R69, R70). -/
def Instr.written : Instr → Written
  | .nop => .nop
  | .decB => .decB
  | .jrNZr8 r8 => .jrNZ r8.toInt
  | .ldHLd16 d16 => .ldHL d16.toNat
  | .xorA => .xorA
  | .jpA16 a16 => .jp a16.toNat

/-! ## The table's words -/

/-- The bytes of an instruction of at most three bytes whose bits are `w` (bit 0 the least significant of the first
byte), every bit from `nbits` up being 0. -/
def tableBytes (nbits w : Nat) : List Byte :=
  [BitVec.ofNat 8 (w % 2 ^ nbits), BitVec.ofNat 8 (w % 2 ^ nbits / 2 ^ 8), BitVec.ofNat 8 (w % 2 ^ nbits / 2 ^ 16)]

/-- The instruction the decoder reads from those bytes. -/
def decodeTableWord (nbits w : Nat) : Option Instr :=
  match decode (tableBytes nbits w) with
  | .error _ => none
  | .ok (i, _) => some i

end Sys2Proof
end

