-- ==== Sys2Proof/Machine/Operands.lean ====
section
/-! DEFINITION. Operand forms: the signed displacement (30_encoding.md R63) and the register pair views (10_state.md R13). -/

namespace Sys2Proof.Machine

/-- `sext_16(v)` (00_scope.md R6). -/
def sext16 (v : Byte) : Word := v.signExtend 16

/-- `(pc + 1) mod 2^16` (10_state.md R20, decision D5, log entry 5). -/
def nextPc (pc : Word) : Word := pc + 1#16

/-- The target of a relative jump, from the address after the operand: a sum modulo 2^16 (42_jumps.md R92, decision D6,
log entry 5). -/
def relativeTarget (pcAfterOperand : Word) (r8 : Byte) : Word := pcAfterOperand + sext16 r8

/-- The three register pairs (10_state.md R13). -/
inductive Pair where
  | bc
  | de
  | hl
  deriving DecidableEq, Repr

/-- `x[pair]`: the first-named register is the high byte (10_state.md R13). -/
def readPair (r : RegisterFile) : Pair → Word
  | .bc => joinWord r.b r.c
  | .de => joinWord r.d r.e
  | .hl => joinWord r.h r.l

/-- `x[pair] <- v` (10_state.md R13). -/
def writePair (r : RegisterFile) (p : Pair) (v : Word) : RegisterFile :=
  match p with
  | .bc => { r with b := hiByte v, c := loByte v }
  | .de => { r with d := hiByte v, e := loByte v }
  | .hl => { r with h := hiByte v, l := loByte v }

end Sys2Proof.Machine
end

