-- ==== Sys2Proof/Machine/Ops.lean ====
section
/-! DEFINITION. The shared operations of the engine: register writes, memory accesses (20_memory.md R32 to R35), fetches
(40_engine_step.md R76, R77), the fetch of a whole instruction, and what a fault does (60_exceptions.md R113). -/

namespace Sys2Proof.Machine

/-! ## Registers -/

/-- `pc <- v`. -/
def State.setPc (s : State) (v : Word) : State := { s with regs := { s.regs with pc := v } }

/-- `x[a] <- v`. -/
def State.setA (s : State) (v : Byte) : State := { s with regs := { s.regs with a := v } }

/-- `x[b] <- v`. -/
def State.setB (s : State) (v : Byte) : State := { s with regs := { s.regs with b := v } }

/-- `x[f] <- v`, for a value that the flag logic has made (10_state.md R15). -/
def State.setF (s : State) (v : Byte) : State := { s with regs := { s.regs with f := v } }

/-- `x[pair] <- v` (10_state.md R13). -/
def State.setPair (s : State) (p : Pair) (v : Word) : State := { s with regs := writePair s.regs p v }

/-- The flag `x` of the flag byte (10_state.md R16). -/
def State.flag (s : State) (x : Flag) : Bool := readFlag x s.regs.f

/-- `Snapshot()`: a copy by value of the register file (60_exceptions.md R121, 10_state.md R27). -/
def State.snapshot (s : State) : RegisterFile := s.regs

/-! ## Memory accesses -/

/-- `MemRead(addr, 1)` (20_memory.md R32; the fault is decision D4, log entry 4). -/
def memRead (s : State) (addr : Word) : Except Fault Byte :=
  match s.mem.read addr with
  | some v => .ok v
  | none => .error (.readOutOfRange addr)

/-- `MemRead(addr, 2)`: two byte reads, low byte first, the second address wrapping (20_memory.md R33; decision D26, log
entry 15). No instruction uses it. -/
def memRead16 (s : State) (addr : Word) : Except Fault Word :=
  match memRead s addr with
  | .error e => .error e
  | .ok lo =>
    match memRead s (addr + 1#16) with
    | .error e => .error e
    | .ok hi => .ok (joinWord hi lo)

/-- `MemWrite(addr, 1, v)` (20_memory.md R34). No instruction uses it. -/
def memWrite (s : State) (addr : Word) (v : Byte) : Except Fault State :=
  match s.mem.write addr v with
  | some m => .ok { s with mem := m }
  | none => .error (.writeToReadOnly addr v)

/-- `MemWrite(addr, 2, v)`: the low byte at `addr`, then the high byte at the next address (20_memory.md R35; decision
D26, log entry 15). No instruction uses it. -/
def memWrite16 (s : State) (addr : Word) (v : Word) : Except Fault State :=
  match memWrite s addr (loByte v) with
  | .error e => .error e
  | .ok s₁ => memWrite s₁ (addr + 1#16) (hiByte v)

/-! ## Fetches -/

/-- `Fetch8()`: the read comes first, then `pc` advances by 1 (40_engine_step.md R76). -/
def fetch8 (s : State) : Except Fault (Byte × State) :=
  match memRead s s.regs.pc with
  | .error e => .error e
  | .ok v => .ok (v, s.setPc (nextPc s.regs.pc))

/-- `Fetch16()`: two `Fetch8()`, low byte first (40_engine_step.md R77; decision D7, log entry 14). -/
def fetch16 (s : State) : Except Fault (Word × State) := fetchWord fetch8 s

/-- The fetch of one instruction: the decoder run on the machine's own fetches. It answers the instruction and the state
with `pc` past its last byte (40_engine_step.md R75 stages 1 to 3, R80; DEDUCED that the operand fetches may be made before
the effect is applied: log entry 13). -/
def fetchInstr (s : State) : Except Fault (Instr × State) :=
  decodeWith fetch8 (fun op => .unimplementedOpcode op s.regs.pc) s

/-! ## Faults -/

/-- What a fault does to the state: `status <- Faulted(cause, info)`, and nothing else: no handler, no vector, no saved
state (60_exceptions.md R113, R119). The registers of a faulted machine are those before the step (decision D10, log
entry 11). There is no return from it (R120). -/
def State.takeFault (s : State) (cause : Fault) : State := { s with status := .faulted cause }

end Sys2Proof.Machine
end

