-- ==== Sys2Proof/Machine/Alu8.lean ====
section
/-! DEFINITION. 43_alu8.md. A meaning is the effect of an instruction on the state in which `pc` is already past its last
byte. -/

namespace Sys2Proof.Machine

/-- `XOR A`: `a <- a ^ a`, with the flags of an xor (43_alu8.md R96). -/
def execXorA (s : State) : Host.Outcome State Fault Refusal :=
  let r := aluXor s.regs.a s.regs.a
  .next ((s.setA r).setF (xorFlags r s.regs.f))

/-- `DEC B`: `b <- (b - 1) mod 2^8`, with the flags of a decrement (43_alu8.md R97). -/
def execDecB (s : State) : Host.Outcome State Fault Refusal :=
  let r := aluDec s.regs.b
  .next ((s.setB r).setF (decFlags s.regs.b r s.regs.f))

end Sys2Proof.Machine
end

