-- ==== Sys2Proof/Machine/Jumps.lean ====
section
/-! DEFINITION. 42_jumps.md. A meaning is the effect of an instruction on the state in which `pc` is already past its last
byte. -/

namespace Sys2Proof.Machine

/-- `JP a16`: `pc <- a16`; the target is not checked (42_jumps.md R91). -/
def execJpA16 (a16 : Word) (s : State) : Host.Outcome State Fault Refusal := .next (s.setPc a16)

/-- `JR NZ,r8`: when Z = 0, `pc <- (pc + sext_16(r8)) mod 2^16`; else `pc` stays past the operand (42_jumps.md R92). -/
def execJrNZr8 (r8 : Byte) (s : State) : Host.Outcome State Fault Refusal :=
  if s.flag .z then .next s else .next (s.setPc (relativeTarget s.regs.pc r8))

end Sys2Proof.Machine
end

