-- ==== Sys2Proof/Machine/Load16.lean ====
section
/-! DEFINITION. 44_load16.md. A meaning is the effect of an instruction on the state in which `pc` is already past its last
byte. -/

namespace Sys2Proof.Machine

/-- `LD HL,d16`: `x[hl] <- d16` (44_load16.md R100). -/
def execLdHLd16 (d16 : Word) (s : State) : Host.Outcome State Fault Refusal := .next (s.setPair .hl d16)

end Sys2Proof.Machine
end

