-- ==== Sys2Proof/Machine/Nop.lean ====
section
/-! DEFINITION. 41_nop.md. A meaning is the effect of an instruction on the state in which `pc` is already past its last
byte. -/

namespace Sys2Proof.Machine

/-- `NOP`: nothing (41_nop.md R90). -/
def execNop (s : State) : Host.Outcome State Fault Refusal := .next s

end Sys2Proof.Machine
end

