-- ==== Sys2Proof/Machine/Dispatch.lean ====
section
/-! DEFINITION. One arm per constructor: the effect a descriptor carries (30_encoding.md R68). -/

namespace Sys2Proof.Machine

def exec (i : Instr) (s : State) : Host.Outcome State Fault Refusal :=
  match i with
  | .nop => Sys2Proof.Machine.execNop s
  | .decB => Sys2Proof.Machine.execDecB s
  | .jrNZr8 r8 => Sys2Proof.Machine.execJrNZr8 r8 s
  | .ldHLd16 d16 => Sys2Proof.Machine.execLdHLd16 d16 s
  | .xorA => Sys2Proof.Machine.execXorA s
  | .jpA16 a16 => Sys2Proof.Machine.execJpA16 a16 s

end Sys2Proof.Machine
end

