-- ==== Sys2Proof/Machine/Step.lean ====
section
/-! DEFINITION. `Step()` (40_engine_step.md R75), the descriptor it hands to the host, the state after a step with the
latch of a fault (60_exceptions.md R113), and the placing of one instruction where the next step fetches it. -/

namespace Sys2Proof.Machine

/-- One fetch-decode-execute transition (40_engine_step.md R75). A faulted machine makes no step: the host gets the
latched cause again (60_exceptions.md R113, R120). -/
def step (s : State) : Host.Outcome State Fault Refusal :=
  match s.status with
  | .faulted cause => .fault cause
  | .running =>
    match fetchInstr s with
    | .error cause => .fault cause
    | .ok (i, s') => exec i s'

/-- `Step()` as the host sees it: with the next state, "the matched descriptor (for tracing/diagnostics)"
(40_engine_step.md R75 stage 5, 60_exceptions.md R121). -/
def hostStep (p : Params) (s : State) : Host.Outcome (Descriptor × State) Fault Refusal :=
  match s.status with
  | .faulted cause => .fault cause
  | .running =>
    match fetchInstr s with
    | .error cause => .fault cause
    | .ok (i, s') =>
      match exec i s' with
      | .next t => .next (i.descriptor p, t)
      | .fault cause => .fault cause
      | .refused r => .refused r

/-- The state after a call of `Step()`: the next state, or the same state with the fault latched
(10_state.md R24, 60_exceptions.md R113). -/
def advance (s : State) : State :=
  match step s with
  | .next t => t
  | .fault cause => s.takeFault cause
  | .refused _ => s

/-- `s` with the instruction whose bits are `w` placed at `pc` (three bytes, those above `nbits` zero), the image grown to
hold it and the machine running: what `Load` and `PowerUp` would leave of a program that stands there (log entry 2). -/
def State.withFetchWord (s : State) (nbits w : Nat) : State :=
  { s with
    mem := ((tableBytes nbits w).zip [s.regs.pc, s.regs.pc + 1#16, s.regs.pc + 2#16]).foldl
      (fun m x => m.setByte x.2.toNat x.1) s.mem
    status := .running }

end Sys2Proof.Machine
end

