-- ==== Sys2Proof/Machine/Errors.lean ====
section
/-! DEFINITION. The taxonomy of errors (60_exceptions.md R101). `Fault` in State.lean holds the ExecutionErrors a step can
stop with; the errors of `Load` come before any machine exists and stand here. -/

namespace Sys2Proof.Machine

/-- The errors of a load (60_exceptions.md R101 to R108), with the information recorded (decision D11, log entry 16). All
are fatal: a failed load yields no cartridge memory and no machine (20_memory.md R48). -/
inductive LoadFault where
  /-- L0: the host could not read the file. The hardware cannot raise it (R106; decision D19, log entry 20). -/
  | fileUnreadable
  /-- L1 (R102). -/
  | imageTooShort (len : Nat)
  /-- L2 (R103). -/
  | unknownRomSizeCode (code : Byte)
  /-- L3 (R104). -/
  | imageTooLong (len expected : Nat)
  /-- L4 (R105). -/
  | unsupportedCartridgeType (type : Byte)
  /-- I1, with the lowest mismatching address (R107). -/
  | logoMismatch (addr : Word)
  /-- I2, with the computed and the stored value (R108). -/
  | headerChecksumMismatch (computed stored : Byte)
  deriving DecidableEq, Repr

/-- The three classes of error (60_exceptions.md R101). -/
inductive ErrorClass where
  | loadError
  | integrityError
  | executionError
  deriving DecidableEq, Repr

/-- Any error of the machine. -/
inductive Cause where
  | ofLoad (e : LoadFault)
  | ofStep (e : Fault)
  deriving DecidableEq, Repr

/-- The class of an error (60_exceptions.md R101). -/
def Cause.errorClass : Cause → ErrorClass
  | .ofLoad .fileUnreadable => .loadError
  | .ofLoad (.imageTooShort _) => .loadError
  | .ofLoad (.unknownRomSizeCode _) => .loadError
  | .ofLoad (.imageTooLong _ _) => .loadError
  | .ofLoad (.unsupportedCartridgeType _) => .loadError
  | .ofLoad (.logoMismatch _) => .integrityError
  | .ofLoad (.headerChecksumMismatch _ _) => .integrityError
  | .ofStep (.unimplementedOpcode _ _) => .executionError
  | .ofStep (.writeToReadOnly _ _) => .executionError
  | .ofStep (.readOutOfRange _) => .executionError

/-- The spec's own label of a cause (60_exceptions.md R101; decision D11). -/
def Cause.label : Cause → String
  | .ofLoad .fileUnreadable => "L0"
  | .ofLoad (.imageTooShort _) => "L1"
  | .ofLoad (.unknownRomSizeCode _) => "L2"
  | .ofLoad (.imageTooLong _ _) => "L3"
  | .ofLoad (.unsupportedCartridgeType _) => "L4"
  | .ofLoad (.logoMismatch _) => "I1"
  | .ofLoad (.headerChecksumMismatch _ _) => "I2"
  | .ofStep (.unimplementedOpcode _ _) => "X1"
  | .ofStep (.writeToReadOnly _ _) => "X2"
  | .ofStep (.readOutOfRange _) => "X3"

end Sys2Proof.Machine
end

