-- ==== Sys2Proof/Machine/Load.lean ====
section
/-! DEFINITION. `Load(image)`: the header validator (20_memory.md R38 to R49), and the boot order image, `Load`, `PowerUp`
(70_reset_and_hazards.md R127). -/

namespace Sys2Proof.Machine

/-! ## The header (20_memory.md R49) -/

/-- `MIN_IMAGE_LEN` (20_memory.md R39). -/
def minImageLen : Nat := 0x150

/-- The first address of the 48-byte logo. -/
def logoAddr : Nat := 0x0104

/-- The first address of the 16-byte title and of the 25-byte checksum range. -/
def titleAddr : Nat := 0x0134

/-- The address of the cartridge type. -/
def cartridgeTypeAddr : Nat := 0x0147

/-- The address of the ROM size code. -/
def romSizeAddr : Nat := 0x0148

/-- The address of the header checksum. -/
def headerChecksumAddr : Nat := 0x014D

/-- A byte of the raw image, used below the length only (20_memory.md R38 steps 2 and 4, after the check of R39). -/
def imageByte (image : List Byte) (k : Nat) : Byte := image.getD k blankByte

/-- A header byte, read through the variant's `read` (20_memory.md R48); the address exists after the check of R39. -/
def Memory.headerByte (m : Memory) (k : Nat) : Byte := (m.read (BitVec.ofNat 16 k)).getD blankByte

/-! ## The checks -/

/-- `RomSize(code)` (20_memory.md R40, R41; decision D2, log entry 9). -/
def romSize (p : Params) (code : Byte) : Except LoadFault Nat :=
  if code.toNat ≤ 0x08 then .ok (p.romSizeBase <<< code.toNat)
  else if code = 0x52#8 then .ok (72 * 16384)
  else if code = 0x53#8 then .ok (80 * 16384)
  else if code = 0x54#8 then .ok (96 * 16384)
  else .error (.unknownRomSizeCode code)

/-- The lowest logo position whose byte differs from `LOGO` (20_memory.md R45; decision D11, log entry 16). -/
def logoMismatchAt (p : Params) (m : Memory) : Option (Fin 48) :=
  (List.finRange 48).find? fun i => m.headerByte (logoAddr + i.val) != p.logo i

/-- One round of the checksum loop: `acc - byte - 1` modulo 2^8 (20_memory.md R46). -/
def checksumRound (acc v : Byte) : Byte := acc - v - 1#8

/-- `HeaderChecksum(cart)`, over 0x0134 to 0x014C (20_memory.md R46). -/
def headerChecksum (m : Memory) : Byte :=
  (List.range 25).foldl (fun acc i => checksumRound acc (m.headerByte (titleAddr + i))) 0#8

/-- `Title(cart)`: the bytes from 0x0134 to 0x0143 up to the first zero byte (20_memory.md R47; decision D18, log entry 17).
It is no machine state. -/
def title (m : Memory) : List Byte :=
  ((List.range 16).map fun i => m.headerByte (titleAddr + i)).takeWhile (· != 0x00#8)

/-- `Load(image)` (20_memory.md R38; the order of the checks is decision D12, log entry 16). -/
def load (p : Params) (image : List Byte) : Except LoadFault (Memory × List Byte) :=
  if image.length < minImageLen then .error (.imageTooShort image.length)
  else
    match romSize p (imageByte image romSizeAddr) with
    | .error e => .error e
    | .ok expected =>
      if expected < image.length then .error (.imageTooLong image.length expected)
      else if imageByte image cartridgeTypeAddr ≠ 0x00#8 then
        .error (.unsupportedCartridgeType (imageByte image cartridgeTypeAddr))
      else
        let m := Memory.ofImage image
        match logoMismatchAt p m with
        | some i => .error (.logoMismatch (BitVec.ofNat 16 (logoAddr + i.val)))
        | none =>
          if headerChecksum m ≠ m.headerByte headerChecksumAddr then
            .error (.headerChecksumMismatch (headerChecksum m) (m.headerByte headerChecksumAddr))
          else .ok (m, title m)

/-! ## Boot -/

/-- The machine before its first step and the title the host may report: `Load`, then `PowerUp`
(70_reset_and_hazards.md R127). -/
def boot (p : Params) (image : List Byte) : Except LoadFault (State × List Byte) :=
  match load p image with
  | .error e => .error e
  | .ok (m, t) => .ok (State.powerUp m, t)

end Sys2Proof.Machine
end

