-- ==== Sys2Proof/Machine/Pseudocode.lean ====
section
/-! DEFINITION. The spec's own description of a step, transcribed: an effect fetches its operands itself
(40_engine_step.md R75, and the pseudocode of R90, R91, R92, R96, R97, R100). `step` fetches a whole instruction first and
then applies its meaning; that the two agree is a statement of the package, not an assumption (log entry 13). -/

namespace Sys2Proof.Machine.Pseudocode

/-- `NOP.effect()` (41_nop.md R90). -/
def nopEffect (s : State) : Except Fault State := .ok s

/-- `JP.effect()` (42_jumps.md R91). -/
def jpEffect (s : State) : Except Fault State := do
  let (t, s) ← fetch16 s
  return s.setPc t

/-- `JR_NZ.effect()` (42_jumps.md R92). -/
def jrNZEffect (s : State) : Except Fault State := do
  let (d, s) ← fetch8 s
  if s.flag .z == false then
    return s.setPc (s.regs.pc + sext16 d)
  else
    return s

/-- `XOR_A.effect()` (43_alu8.md R96). -/
def xorAEffect (s : State) : Except Fault State := do
  let r := s.regs.a ^^^ s.regs.a
  let s := s.setA r
  let s := s.setF (writeFlag .z (r == 0x00#8) s.regs.f)
  let s := s.setF (writeFlag .n false s.regs.f)
  let s := s.setF (writeFlag .h false s.regs.f)
  return s.setF (writeFlag .c false s.regs.f)

/-- `DEC_B.effect()` (43_alu8.md R97). -/
def decBEffect (s : State) : Except Fault State := do
  let p := s.regs.b
  let r := p - 1#8
  let s := s.setB r
  let s := s.setF (writeFlag .z (r == 0x00#8) s.regs.f)
  let s := s.setF (writeFlag .n true s.regs.f)
  return s.setF (writeFlag .h ((p &&& 0x0F#8) == 0x00#8) s.regs.f)

/-- `LD_HL.effect()` (44_load16.md R100). -/
def ldHLEffect (s : State) : Except Fault State := do
  let (v, s) ← fetch16 s
  return s.setPair .hl v

/-- The effect of a descriptor (30_encoding.md R68). -/
def effect : OpKind → State → Except Fault State
  | .nop => nopEffect
  | .decB => decBEffect
  | .jrNZ => jrNZEffect
  | .ldHL => ldHLEffect
  | .xorA => xorAEffect
  | .jp => jpEffect

/-- `Step()`, on a running machine: the row of the matched descriptor and the next state, or the fault
(40_engine_step.md R75). -/
def step (s : State) : Except Fault (Row × State) := do
  let pc0 := s.regs.pc
  let (op, s) ← fetch8 s
  match lookup op with
  | none => .error (.unimplementedOpcode op pc0)
  | some d =>
    let s ← effect d.effect s
    return (d, s)

end Sys2Proof.Machine.Pseudocode
end

