-- ==== Sys2Proof/Safety.lean ====
section
/-! DEFINITION. The terms claims are stated in: runs, the invariants the spec gives the machine, what no step changes, and
what a validated image is. -/

namespace Sys2Proof.Machine

/-! ## Runs (70_reset_and_hazards.md R130) -/

/-- `n` steps, stopping at the first fault or refusal: the run of Host/Core.lean, on this machine's types. -/
def run : Nat → State → Host.Outcome State Fault Refusal
  | 0, s => .next s
  | n + 1, s =>
    match step s with
    | .next t => run n t
    | .fault cause => .fault cause
    | .refused r => .refused r

/-- `n` steps from `s` all succeed and end in `t`. -/
def RunsTo (n : Nat) (s t : State) : Prop := run n s = .next t

/-- A run that never ends (40_engine_step.md R83: "a run is either infinite or ends in a fault"). -/
def FaultFree (s : State) : Prop := ∀ n, ∃ t, RunsTo n s t

/-- `n` times the meaning of one instruction, each from the state the last one left. -/
def repeatExec (i : Instr) : Nat → State → Host.Outcome State Fault Refusal
  | 0, s => .next s
  | n + 1, s =>
    match exec i s with
    | .next t => repeatExec i n t
    | .fault cause => .fault cause
    | .refused r => .refused r

/-! ## Invariants -/

/-- "flag byte's low nibble is always zero" (10_state.md R15). -/
def FlagNibbleClear (s : State) : Prop := s.regs.f &&& 0x0F#8 = 0#8

/-- The invariant of every machine state: the flag byte's low nibble is zero (10_state.md R15) and the memory is in the
model's canonical form (log entry 3). -/
def Inv (s : State) : Prop := FlagNibbleClear s ∧ s.mem.wf = true

/-- What holds of a machine that booted `image`, from power-up on: the memory is that image (20_memory.md R54), the latch is
Running (10_state.md R24), and what no instruction can change holds its power-up value (10_state.md R12, R15, R18, R26;
43_alu8.md R96). -/
structure BootedWith (image : List Byte) (s : State) : Prop where
  mem : s.mem = Memory.ofImage image
  running : s.status = .running
  nibbleClear : FlagNibbleClear s
  carryClear : s.flag .c = false
  c : s.regs.c = 0x13#8
  d : s.regs.d = 0x00#8
  e : s.regs.e = 0xD8#8
  sp : s.regs.sp = 0xFFFE#16

/-! ## Frames -/

/-- The whole state but `pc`, `a`, `b`, `f`, `h` and `l`: what no instruction of this machine writes
(10_state.md R12, R18; 40_engine_step.md R82). -/
def SameUntouched (s t : State) : Prop :=
  t.regs.c = s.regs.c ∧ t.regs.d = s.regs.d ∧ t.regs.e = s.regs.e ∧ t.regs.sp = s.regs.sp ∧
    t.mem = s.mem ∧ t.status = s.status

/-- Every byte of memory reads as before, and the same addresses exist. -/
def SameMemory (s t : State) : Prop := ∀ addr, memRead t addr = memRead s addr

/-! ## Instructions in memory -/

/-- The bytes `bytes` stand at `addr`, `addr + 1`, ... (modulo 2^16) (30_encoding.md R61). -/
def BytesAt (s : State) (addr : Word) : List Byte → Prop
  | [] => True
  | v :: rest => memRead s addr = .ok v ∧ BytesAt s (addr + 1#16) rest

/-- Two states no address can tell apart: equal registers and latch, and the same images below offset 0x10000
(20_memory.md R31). -/
structure SameBelow64K (s t : State) : Prop where
  regs : s.regs = t.regs
  status : s.status = t.status
  variant : s.mem.variant = t.mem.variant
  exists_iff : ∀ k, k < 0x10000 → (k < s.mem.length ↔ k < t.mem.length)
  bytes : ∀ k, k < 0x10000 → s.mem.byteAt k = t.mem.byteAt k

/-- Two outcomes that agree in all but the memory. -/
def SameOutcome : Host.Outcome State Fault Refusal → Host.Outcome State Fault Refusal → Prop
  | .next s, .next t => s.regs = t.regs ∧ s.status = t.status
  | .fault f, .fault g => f = g
  | .refused r, .refused q => r = q
  | _, _ => False

/-! ## Images -/

/-- What a validated image is, said of its bytes alone (20_memory.md R39 to R46). -/
structure ValidImage (p : Params) (image : List Byte) : Prop where
  /-- R39. -/
  longEnough : 0x150 ≤ image.length
  /-- R40, R42. -/
  sizeKnown : ∃ expected, romSize p (image.getD 0x148 0#8) = .ok expected ∧ image.length ≤ expected
  /-- R44. -/
  romOnlyType : image.getD 0x147 0#8 = 0#8
  /-- R45. -/
  logoEqual : ∀ i : Fin 48, image.getD (0x104 + i.val) 0#8 = p.logo i
  /-- R46, with the sum of the 25 bytes of the range. -/
  checksumEqual : image.getD 0x14D 0#8 =
    BitVec.ofInt 8 (0 - ((((image.drop 0x134).take 25).map BitVec.toNat).sum : Int) - 25)

end Sys2Proof.Machine
end

