-- ==== Sys2Proof/Certificates/Slice0/Obligations.lean ====
section
/-! DEFINITION. The statements for the provers. Each docstring names the rule of spec/ it formalises; where a clause rests on
a decision of the spec (D1 to D28) or on the model's own choice, the docstring says so. -/

open Sys2Proof Sys2Proof.Machine

/-! ## Power-up, registers, flags -/

/-- 10_state.md R26: the power-up values, the three pairs, the four flags, the latch and the given cartridge memory. The flag
byte is the spec's derivation and its decision D21 (log entry 18). -/
def Obligations.PowerUpHasTheStatedValues : Prop :=
  ∀ m : Memory,
    (State.powerUp m).regs = ⟨0x01#8, 0x00#8, 0x13#8, 0x00#8, 0xD8#8, 0x01#8, 0x4D#8, 0x80#8, 0xFFFE#16, 0x0100#16⟩ ∧
    readPair (State.powerUp m).regs .bc = 0x0013#16 ∧ readPair (State.powerUp m).regs .de = 0x00D8#16 ∧
    readPair (State.powerUp m).regs .hl = 0x014D#16 ∧
    (State.powerUp m).flag .z = true ∧ (State.powerUp m).flag .n = false ∧
    (State.powerUp m).flag .h = false ∧ (State.powerUp m).flag .c = false ∧
    (State.powerUp m).status = .running ∧ (State.powerUp m).mem = m

/-- The constant `State.reset` is the power-up of a machine without an image (the model's choice, log entry 1): its first
step stops at the opcode fetch at 0x0100 (decision D4, log entry 4). -/
def Obligations.ResetWithoutImageStopsAtItsFirstFetch : Prop :=
  State.reset = State.powerUp Memory.absent ∧ step State.reset = .fault (.readOutOfRange 0x0100#16)

/-- 10_state.md R13: a pair is its two registers with the first-named as the high byte, a write of a pair writes the two
registers and no other. -/
def Obligations.PairsAreViewsOfTheirRegisters : Prop :=
  ∀ (r : RegisterFile) (v : Word),
    ((readPair r .bc).toNat = r.b.toNat * 256 + r.c.toNat ∧ (readPair r .de).toNat = r.d.toNat * 256 + r.e.toNat ∧
      (readPair r .hl).toNat = r.h.toNat * 256 + r.l.toNat) ∧
    (∃ hi lo : Byte, hi.toNat = v.toNat / 256 ∧ lo.toNat = v.toNat % 256 ∧
      writePair r .bc v = { r with b := hi, c := lo } ∧ writePair r .de v = { r with d := hi, e := lo } ∧
      writePair r .hl v = { r with h := hi, l := lo }) ∧
    ∀ p, readPair (writePair r p v) p = v

/-- 10_state.md R16: a flag reads as its bit, and writing one flag sets that bit and leaves the other seven. -/
def Obligations.WritingOneFlagLeavesTheOtherBits : Prop :=
  ∀ f : Byte,
    (readFlag .z f = f.getLsbD 7 ∧ readFlag .n f = f.getLsbD 6 ∧ readFlag .h f = f.getLsbD 5 ∧
      readFlag .c f = f.getLsbD 4) ∧
    ∀ (x : Flag) (v : Bool),
      readFlag x (writeFlag x v f) = v ∧
      ∀ i, i ≠ x.bit → (writeFlag x v f).getLsbD i = f.getLsbD i

/-- 43_alu8.md R95: results and flags of an xor and of a decrement. R95 says nothing of the low nibble of the flag byte: that
it is left as it was is the model's reading of 10_state.md R16 (DEDUCED, log entry 18). -/
def Obligations.AluFlagsFollowTheTable : Prop :=
  ∀ p q f : Byte,
    (aluXor p q = p ^^^ q ∧
      readFlag .z (xorFlags (aluXor p q) f) = (p ^^^ q == 0#8) ∧ readFlag .n (xorFlags (aluXor p q) f) = false ∧
      readFlag .h (xorFlags (aluXor p q) f) = false ∧ readFlag .c (xorFlags (aluXor p q) f) = false ∧
      xorFlags (aluXor p q) f &&& 0x0F#8 = f &&& 0x0F#8) ∧
    ((aluDec p).toNat = (p.toNat + 255) % 256 ∧
      readFlag .z (decFlags p (aluDec p) f) = (aluDec p == 0#8) ∧ readFlag .n (decFlags p (aluDec p) f) = true ∧
      readFlag .h (decFlags p (aluDec p) f) = (p.toNat % 16 == 0) ∧
      readFlag .c (decFlags p (aluDec p) f) = readFlag .c f ∧
      decFlags p (aluDec p) f &&& 0x0F#8 = f &&& 0x0F#8)

/-! ## Memory -/

/-- 20_memory.md R32: a read gives the byte of the image at that offset. That a read at or above the length faults is the
spec's decision D4 (log entry 4). -/
def Obligations.ReadGivesTheByteOfTheImage : Prop :=
  ∀ (image : List Byte) (s : State) (addr : Word), s.mem = Memory.ofImage image →
    (∀ v, image[addr.toNat]? = some v → memRead s addr = .ok v) ∧
    (image[addr.toNat]? = none → memRead s addr = .error (.readOutOfRange addr))

/-- 20_memory.md R34: every byte write, at every address, is the fault WriteToReadOnly. -/
def Obligations.EveryWriteFaults : Prop :=
  ∀ (s : State) (addr : Word) (v : Byte), memWrite s addr v = .error (.writeToReadOnly addr v)

/-- 20_memory.md R33 and R35, both the spec's decision D26 (log entry 15): 16-bit data accesses are two byte accesses, low
byte first, the second address wrapping. -/
def Obligations.WordAccessesAreTwoByteAccesses : Prop :=
  ∀ (s : State) (addr : Word),
    (∀ lo hi, memRead s addr = .ok lo → memRead s (addr + 1#16) = .ok hi →
      ∃ v : Word, memRead16 s addr = .ok v ∧ v.toNat = hi.toNat * 256 + lo.toNat) ∧
    (∀ e, memRead s addr = .error e → memRead16 s addr = .error e) ∧
    (∀ lo e, memRead s addr = .ok lo → memRead s (addr + 1#16) = .error e → memRead16 s addr = .error e) ∧
    ∀ v : Word, ∃ lo : Byte, lo.toNat = v.toNat % 256 ∧ memWrite16 s addr v = .error (.writeToReadOnly addr lo)

/-- The canonical form is canonical (the model's representation, log entry 3): two memories in it that hold the same image
are the same data. -/
def Obligations.EqualImagesAreEqualData : Prop :=
  ∀ m n : Memory, m.wf = true → n.wf = true → m.variant = n.variant → m.length = n.length →
    (∀ k, k < m.length → m.byteAt k = n.byteAt k) → m = n

/-! ## Load -/

/-- 20_memory.md R38 to R48: an image loads exactly when it is valid, and the result is the image as cartridge memory with
every byte at its offset. R40's base is a parameter (decision D2, log entry 9); the closed form of the checksum is derived
in R46. -/
def Obligations.LoadAcceptsExactlyTheValidImages : Prop :=
  ∀ (p : Params) (image : List Byte),
    ((∃ r, load p image = .ok r) ↔ ValidImage p image) ∧
    ∀ m t, load p image = .ok (m, t) →
      m.variant = .romOnly ∧ m.length = image.length ∧ ∀ k v, image[k]? = some v → m.byteAt k = v

/-- 60_exceptions.md R102: an image shorter than 0x150 is reported as too short whatever its content. That this check comes
first is decision D12, and that its length is recorded with the error is decision D11 (both log entry 16). -/
def Obligations.ShortImageIsTooShortWhateverItHolds : Prop :=
  ∀ (p : Params) (image : List Byte), image.length < 0x150 → load p image = .error (.imageTooShort image.length)

/-- 20_memory.md R40 (the base is decision D2, a parameter; log entry 9): the sizes of the twelve codes, and no other code. -/
def Obligations.RomSizeOfEveryCode : Prop :=
  ∀ (p : Params) (code : Byte),
    (code.toNat ≤ 8 → romSize p code = .ok (p.romSizeBase * 2 ^ code.toNat)) ∧
    romSize p 0x52#8 = .ok 1179648 ∧ romSize p 0x53#8 = .ok 1310720 ∧ romSize p 0x54#8 = .ok 1572864 ∧
    (8 < code.toNat → code ≠ 0x52#8 → code ≠ 0x53#8 → code ≠ 0x54#8 → romSize p code = .error (.unknownRomSizeCode code))

/-- 20_memory.md R42 and R43: with the other checks passing, an image of any length from 0x150 to the declared size loads,
and a longer one fails. That the size is reported before a later check, and what is recorded with it, are decisions D12 and
D11 (log entry 16). -/
def Obligations.DeclaredSizeBoundsTheLengthFromAboveOnly : Prop :=
  ∀ (p : Params) (image : List Byte) (expected : Nat), 0x150 ≤ image.length →
    romSize p (image.getD 0x148 0#8) = .ok expected →
    (expected < image.length → load p image = .error (.imageTooLong image.length expected)) ∧
    (image.length ≤ expected → image.getD 0x147 0#8 = 0#8 → (∀ i : Fin 48, image.getD (0x104 + i.val) 0#8 = p.logo i) →
      image.getD 0x14D 0#8 = BitVec.ofInt 8 (0 - ((((image.drop 0x134).take 25).map BitVec.toNat).sum : Int) - 25) →
      ∃ r, load p image = .ok r)

/-- 20_memory.md R44: type 0x00 selects the ROM-only variant, and every other type is refused. That the type is reported
before the logo and the checksum, and the byte recorded with it, are decisions D12 and D11 (log entry 16). -/
def Obligations.OnlyCartridgeTypeZeroLoads : Prop :=
  ∀ (p : Params) (image : List Byte) (expected : Nat), 0x150 ≤ image.length →
    romSize p (image.getD 0x148 0#8) = .ok expected → image.length ≤ expected →
    (image.getD 0x147 0#8 ≠ 0#8 → load p image = .error (.unsupportedCartridgeType (image.getD 0x147 0#8))) ∧
    ∀ m t, load p image = .ok (m, t) → image.getD 0x147 0#8 = 0#8 ∧ m.variant = .romOnly

/-- 20_memory.md R45: changing any one logo byte of a valid image makes its load fail. That the address is reported is
decision D11 (log entry 16). -/
def Obligations.FlippedLogoByteIsRefused : Prop :=
  ∀ (p : Params) (image : List Byte) (i : Fin 48) (v : Byte), ValidImage p image → v ≠ p.logo i →
    load p (image.set (0x104 + i.val) v) = .error (.logoMismatch (BitVec.ofNat 16 (0x104 + i.val)))

/-- 20_memory.md R46: changing the checksum byte of a valid image makes its load fail, with the computed and the stored
value (the information is decision D11, log entry 16). -/
def Obligations.FlippedChecksumByteIsRefused : Prop :=
  ∀ (p : Params) (image : List Byte) (v : Byte), ValidImage p image → v ≠ image.getD 0x14D 0#8 →
    load p (image.set 0x14D v) = .error (.headerChecksumMismatch (image.getD 0x14D 0#8) v)

/-- 60_exceptions.md R114: the whole order of the checks, L1, L2, L3, L4, I1, I2, whatever the later ones would find, and that
an image that fails none of them loads. The order is decision D12 and the recorded information, the lowest bad logo address
among it, decision D11 (both log entry 16). -/
def Obligations.LoadReportsTheFirstFailedCheck : Prop :=
  ∀ (p : Params) (image : List Byte),
    (image.length < 0x150 → load p image = .error (.imageTooShort image.length)) ∧
    (0x150 ≤ image.length →
      (∀ e, romSize p (image.getD 0x148 0#8) = .error e →
        load p image = .error (.unknownRomSizeCode (image.getD 0x148 0#8))) ∧
      ∀ expected, romSize p (image.getD 0x148 0#8) = .ok expected →
        (expected < image.length → load p image = .error (.imageTooLong image.length expected)) ∧
        (image.length ≤ expected →
          (image.getD 0x147 0#8 ≠ 0#8 → load p image = .error (.unsupportedCartridgeType (image.getD 0x147 0#8))) ∧
          (image.getD 0x147 0#8 = 0#8 →
            (∀ i : Fin 48, image.getD (0x104 + i.val) 0#8 ≠ p.logo i →
              (∀ j : Fin 48, j < i → image.getD (0x104 + j.val) 0#8 = p.logo j) →
              load p image = .error (.logoMismatch (BitVec.ofNat 16 (0x104 + i.val)))) ∧
            ((∀ i : Fin 48, image.getD (0x104 + i.val) 0#8 = p.logo i) →
              ∀ computed : Byte,
                computed = BitVec.ofInt 8 (0 - ((((image.drop 0x134).take 25).map BitVec.toNat).sum : Int) - 25) →
                (image.getD 0x14D 0#8 ≠ computed →
                  load p image = .error (.headerChecksumMismatch computed (image.getD 0x14D 0#8))) ∧
                (image.getD 0x14D 0#8 = computed → ∃ r, load p image = .ok r)))))

/-- 20_memory.md R56: a byte outside the listed fields is neither checked nor interpreted; those inside the checksum range
count in the sum alone, so with the checksum byte that fits the image loads, and those outside it leave the load as it was.
The title is the same in both cases. -/
def Obligations.UnlistedHeaderBytesAreNotChecked : Prop :=
  ∀ (p : Params) (image : List Byte) (k : Nat) (v : Byte), ValidImage p image →
    ((0x144 ≤ k ∧ k ≤ 0x146 ∨ 0x149 ≤ k ∧ k ≤ 0x14C) →
      ∃ checksum m m' t, load p image = .ok (m, t) ∧ load p ((image.set k v).set 0x14D checksum) = .ok (m', t)) ∧
    ((k < 0x104 ∨ 0x14D < k) →
      ∃ m m' t, load p image = .ok (m, t) ∧ load p (image.set k v) = .ok (m', t))

/-- 60_exceptions.md R101 and R106 (decision D19, log entry 20): a load fails by a LoadError or an IntegrityError, never by
the host's own FileUnreadable, and a step fails by an ExecutionError. -/
def Obligations.ErrorsComeFromTheirOperations : Prop :=
  (∀ (p : Params) (image : List Byte) (e : LoadFault), load p image = .error e →
    e ≠ .fileUnreadable ∧ ((Cause.ofLoad e).errorClass = .loadError ∨ (Cause.ofLoad e).errorClass = .integrityError)) ∧
  ∀ (s : State) (cause : Fault), step s = .fault cause → (Cause.ofStep cause).errorClass = .executionError

/-- 20_memory.md R47 (bytes, not characters: decision D18, log entry 17): the title is the longest prefix of the 16 title
bytes that holds no zero byte. -/
def Obligations.TitleIsTheLongestPrefixWithoutZero : Prop :=
  ∀ (p : Params) (image : List Byte) (m : Memory) (t : List Byte), load p image = .ok (m, t) →
    t.length ≤ 16 ∧ (∀ k, k < t.length → t.getD k 0#8 = image.getD (0x134 + k) 0#8 ∧ t.getD k 0#8 ≠ 0#8) ∧
    (t.length < 16 → image.getD (0x134 + t.length) 0#8 = 0#8)

/-! ## The table, the decoder, the assembler -/

/-- 30_encoding.md R65: no two entries share a key, at most 256 entries, and building a table rejects duplicates. -/
def Obligations.TableRejectsDuplicateKeys : Prop :=
  (buildTable table = some table ∧ table.length ≤ 256) ∧
    ∀ (before middle after : List Row) (r q : Row), r.opcode = q.opcode →
      buildTable (before ++ r :: middle ++ q :: after) = none

/-- Words written out from the encodings of 30_encoding.md R64 decode to the instructions they stand for. -/
def Obligations.WordsOfTheTableDecode : Prop :=
  decode [0b00000000#8] = .ok (.nop, []) ∧ decode [0b00000101#8] = .ok (.decB, []) ∧
    decode [0b00100000#8, 0b11111101#8] = .ok (.jrNZr8 0xFD#8, []) ∧
    decode [0b00100001#8, 0b00110100#8, 0b00010010#8] = .ok (.ldHLd16 0x1234#16, []) ∧
    decode [0b10101111#8] = .ok (.xorA, []) ∧
    decode [0b11000011#8, 0b01010000#8, 0b00000001#8, 0xFF#8] = .ok (.jpA16 0x0150#16, [0xFF#8])

/-- Decoding what `encode` wrote gives the instruction back, with every operand at every value, and leaves the bytes after
it (30_encoding.md R60, R61, R63, R64). -/
def Obligations.DecodeOfEncodeIsTheInstruction : Prop :=
  ∀ (i : Instr) (rest : List Byte), decode (encode i ++ rest) = .ok (i, rest)

/-- The other direction: bytes that decode to an instruction are its encoding and what follows it (30_encoding.md R62: no
further instruction is derived by varying bits of the six opcodes). -/
def Obligations.DecodedBytesAreTheEncoding : Prop :=
  ∀ (bytes : List Byte) (i : Instr) (rest : List Byte), decode bytes = .ok (i, rest) → bytes = encode i ++ rest

/-- When the decoder rejects: the first byte is none of the six opcodes (30_encoding.md R66), or the bytes end inside an
instruction. -/
def Obligations.DecoderRejectsExactly : Prop :=
  ∀ bytes : List Byte,
    (∀ op, decode bytes = .error (.unimplementedOpcode op) ↔
      (∃ rest, bytes = op :: rest) ∧ op ∉ [0x00#8, 0x05#8, 0x20#8, 0x21#8, 0xAF#8, 0xC3#8]) ∧
    (decode bytes = .error .truncated ↔ ∃ (i : Instr) (missing : List Byte), missing ≠ [] ∧ bytes ++ missing = encode i)

/-- 30_encoding.md R69 and R70 (decision D13; that an operand outside its range is no instruction is the model's choice; both
log entry 19): every instruction is written in one way; a displacement, a label and a 16-bit operand assemble exactly in
their ranges. A label's displacement is computed without a wrap, and the taken jump reaches the label. -/
def Obligations.AssemblerKeepsTheRanges : Prop :=
  (∀ (at_ : Nat) (i : Instr), assemble at_ i.written = some i) ∧
  (∀ (at_ : Nat) (e : Int), (-128 ≤ e ∧ e ≤ 127 → ∃ d : Byte, assemble at_ (.jrNZ e) = some (.jrNZr8 d) ∧ d.toInt = e) ∧
    (e < -128 ∨ 127 < e → assemble at_ (.jrNZ e) = none)) ∧
  (∀ (at_ nn : Nat), (nn ≤ 0xFFFF → ∃ v : Word, v.toNat = nn ∧ assemble at_ (.ldHL nn) = some (.ldHLd16 v) ∧
      assemble at_ (.jp nn) = some (.jpA16 v)) ∧
    (0xFFFF < nn → assemble at_ (.ldHL nn) = none ∧ assemble at_ (.jp nn) = none)) ∧
  ∀ at_ label : Nat,
    (-128 ≤ (label : Int) - ((at_ : Int) + 2) ∧ (label : Int) - ((at_ : Int) + 2) ≤ 127 →
      ∃ d : Byte, assemble at_ (.jrNZLabel label) = some (.jrNZr8 d) ∧ d.toInt = (label : Int) - ((at_ : Int) + 2) ∧
        relativeTarget (BitVec.ofNat 16 (at_ + 2)) d = BitVec.ofNat 16 label) ∧
    ((label : Int) - ((at_ : Int) + 2) < -128 ∨ 127 < (label : Int) - ((at_ : Int) + 2) →
      assemble at_ (.jrNZLabel label) = none)

/-! ## The step -/

/-- A step runs the decoded instruction: when the bytes at `pc` decode to an instruction, the step is its meaning applied to
the state with `pc` past its last byte (40_engine_step.md R75, R80; the wrap of `pc` is decision D5, log entry 5). -/
def Obligations.StepRunsTheDecodedInstruction : Prop :=
  ∀ (s : State) (bytes rest : List Byte) (i : Instr), s.status = .running → BytesAt s s.regs.pc bytes →
    decode bytes = .ok (i, rest) → step s = exec i (s.setPc (s.regs.pc + BitVec.ofNat 16 i.length))

/-- 30_encoding.md R66: the other 250 opcode values have no entry, and a step that fetches one raises UnimplementedOpcode
whatever follows it, readable or not. The set of six is decision D1 (log entry 12); the recorded opcode and address are
decision D11 (log entry 16). -/
def Obligations.OtherOpcodesAreUnimplemented : Prop :=
  ∀ op : Byte, op ∉ [0x00#8, 0x05#8, 0x20#8, 0x21#8, 0xAF#8, 0xC3#8] →
    lookup op = none ∧
    ∀ s : State, s.status = .running → memRead s s.regs.pc = .ok op → step s = .fault (.unimplementedOpcode op s.regs.pc)

/-- 60_exceptions.md R112 and R114: which fetch faults first. That an out-of-range read faults is decision D4 (log entry 4),
that a 16-bit fetch is two byte fetches decision D7 (log entry 14). The operand of JR NZ,r8 is fetched whatever Z is. -/
def Obligations.FetchOutOfRangeFaultsInOrder : Prop :=
  ∀ s : State, s.status = .running →
    (∀ e, memRead s s.regs.pc = .error e → step s = .fault (.readOutOfRange s.regs.pc)) ∧
    (∀ op e, memRead s s.regs.pc = .ok op → op ∈ [0x20#8, 0x21#8, 0xC3#8] → memRead s (s.regs.pc + 1#16) = .error e →
      step s = .fault (.readOutOfRange (s.regs.pc + 1#16))) ∧
    (∀ op lo e, memRead s s.regs.pc = .ok op → op ∈ [0x21#8, 0xC3#8] → memRead s (s.regs.pc + 1#16) = .ok lo →
      memRead s (s.regs.pc + 2#16) = .error e → step s = .fault (.readOutOfRange (s.regs.pc + 2#16)))

/-- A running machine's step succeeds exactly when the bytes of an instruction stand at `pc` (60_exceptions.md R112; that a
read outside the image faults is decision D4, log entry 4, and the set of instructions decision D1, log entry 12). -/
def Obligations.StepSucceedsExactlyOnAnInstruction : Prop :=
  ∀ s : State, s.status = .running → ((∃ t, step s = .next t) ↔ ∃ i, BytesAt s s.regs.pc (encode i))

/-- 40_engine_step.md R83 with 60_exceptions.md R110: a run ends by UnimplementedOpcode or ReadOutOfRange and by nothing
else; no run raises WriteToReadOnly or a refusal. ReadOutOfRange is decision D4 (log entry 4). -/
def Obligations.RunEndsOnlyByTwoFaults : Prop :=
  ∀ (n : Nat) (s : State), s.status = .running →
    (∃ t, run n s = .next t) ∨
    (∃ op pc0, run n s = .fault (.unimplementedOpcode op pc0)) ∨
    (∃ addr, run n s = .fault (.readOutOfRange addr))

/-- 60_exceptions.md R113 and R120 (the latch is decision D10, log entry 11): after a fault the latch holds the cause, no
later step is made, and no state changes any more. -/
def Obligations.FaultIsFinal : Prop :=
  ∀ (s : State) (cause : Fault), step s = .fault cause →
    (advance s).status = .faulted cause ∧
    ∀ n, advance^[n] (advance s) = advance s ∧ run (n + 1) (advance s) = .fault cause

/-- The step agrees with the spec's own pseudocode, in which each effect fetches its operands itself (40_engine_step.md R75
to R77 and the pseudocode of the six instruction rules), the descriptor handed to the host included. That the operands may
be fetched before the effect is DEDUCED (log entry 13), and this statement is its check. -/
def Obligations.StepAgreesWithThePseudocode : Prop :=
  ∀ (p : Params) (s : State), s.status = .running →
    hostStep p s = match Pseudocode.step s with
      | .ok (row, t) => .next (row.descriptor p, t)
      | .error cause => .fault cause

/-- 40_engine_step.md R75 stage 5: the host gets the descriptor the table has for the fetched opcode, with the same next
state, and the same fault instead of a descriptor. -/
def Obligations.HostGetsTheMatchedDescriptor : Prop :=
  ∀ (p : Params) (s : State),
    (∀ d t, hostStep p s = .next (d, t) → step s = .next t ∧
      ∃ op row, memRead s s.regs.pc = .ok op ∧ lookup op = some row ∧ d = row.descriptor p ∧ d.opcode = op ∧
        d.cycles = p.cycles op) ∧
    (∀ t, step s = .next t → ∃ d, hostStep p s = .next (d, t)) ∧
    ∀ cause, hostStep p s = .fault cause ↔ step s = .fault cause

/-- 40_engine_step.md R80, 42_jumps.md R93 (wraps: decisions D5 and D6, log entry 5; the length of DEC B: decision D8, log
entry 7): where `pc` stands after a step. A non-branch ends past its last byte, and so does a jump that is not taken. -/
def Obligations.PcAfterAStep : Prop :=
  ∀ (s : State) (i : Instr), s.status = .running → BytesAt s s.regs.pc (encode i) → ∃ t, step s = .next t ∧
    match i with
    | .nop | .decB | .xorA => t.regs.pc.toNat = (s.regs.pc.toNat + 1) % 65536
    | .ldHLd16 _ => t.regs.pc.toNat = (s.regs.pc.toNat + 3) % 65536
    | .jpA16 a16 => t.regs.pc = a16
    | .jrNZr8 r8 =>
      if s.regs.f.getLsbD 7 = true then t.regs.pc.toNat = (s.regs.pc.toNat + 2) % 65536
      else (t.regs.pc.toNat : Int) = ((s.regs.pc.toNat : Int) + 2 + r8.toInt) % 65536

/-! ## The instructions: what each does where it completes, and what it leaves alone -/

/-- 41_nop.md R90: NOP completes in every state and its effect is nothing (the wrap of `pc` is decision D5, log entry 5). -/
def Obligations.NopDoesNothing : Prop :=
  ∀ s : State, exec .nop s = .next s ∧
    (s.status = .running → memRead s s.regs.pc = .ok 0x00#8 →
      step s = .next { s with regs := { s.regs with pc := s.regs.pc + 1#16 } })

/-- 42_jumps.md R91: JP a16 completes in every state, for every target, and writes `pc` only. -/
def Obligations.JpWritesPcOnly : Prop :=
  ∀ (s : State) (a16 : Word), exec (.jpA16 a16) s = .next { s with regs := { s.regs with pc := a16 } }

/-- 42_jumps.md R92 (the sum modulo 2^16 is decision D6, log entry 5): JR NZ,r8 completes in every state, and writes `pc`
only, when Z is clear. That nothing else changes is decision D9 (log entry 6). -/
def Obligations.JrNZAddsItsDisplacementWhenZIsClear : Prop :=
  ∀ (s : State) (r8 : Byte),
    (s.regs.f.getLsbD 7 = true → exec (.jrNZr8 r8) s = .next s) ∧
    (s.regs.f.getLsbD 7 = false →
      ∃ target : Word, (target.toNat : Int) = ((s.regs.pc.toNat : Int) + r8.toInt) % 65536 ∧
        exec (.jrNZr8 r8) s = .next { s with regs := { s.regs with pc := target } })

/-- 44_load16.md R100: LD HL,d16 completes in every state, h gets the high byte and l the low byte, and nothing else
changes (the last is the frame rule, decision D9, log entry 6). -/
def Obligations.LdHLLoadsThePair : Prop :=
  ∀ (s : State) (d16 : Word), ∃ hi lo : Byte, hi.toNat = d16.toNat / 256 ∧ lo.toNat = d16.toNat % 256 ∧
    exec (.ldHLd16 d16) s = .next { s with regs := { s.regs with h := hi, l := lo } }

/-- 43_alu8.md R96: XOR A completes in every state with a = 0x00 and Z alone set, whatever a and the flags were; f is 0x80
where its low nibble is zero (10_state.md R15). That the low nibble stays as it was in every other state, where R96 would
have 0x80, is the model's reading of 10_state.md R16 (DEDUCED, log entry 18). Nothing else changes (decision D9, log
entry 6). -/
def Obligations.XorAClearsAAndSetsZAlone : Prop :=
  ∀ s : State, ∃ f' : Byte,
    exec .xorA s = .next { s with regs := { s.regs with a := 0x00#8, f := f' } } ∧
    f'.getLsbD 7 = true ∧ f'.getLsbD 6 = false ∧ f'.getLsbD 5 = false ∧ f'.getLsbD 4 = false ∧
    f' &&& 0x0F#8 = s.regs.f &&& 0x0F#8 ∧ (FlagNibbleClear s → f' = 0x80#8)

/-- 43_alu8.md R97: DEC B completes in every state with b one less modulo 256, Z, N and H from it, C kept; f is the byte the
rule gives where its low nibble is zero. That the low nibble stays as it was in every other state, where the rule's byte
drops it, is the model's reading of 10_state.md R16 (DEDUCED, log entry 18). Nothing else changes (decision D9, log
entry 6). -/
def Obligations.DecBDecrementsAndSetsItsFlags : Prop :=
  ∀ s : State, ∃ b' f' : Byte,
    exec .decB s = .next { s with regs := { s.regs with b := b', f := f' } } ∧
    b'.toNat = (s.regs.b.toNat + 255) % 256 ∧
    f'.getLsbD 7 = (s.regs.b == 0x01#8) ∧ f'.getLsbD 6 = true ∧ f'.getLsbD 5 = (s.regs.b.toNat % 16 == 0) ∧
    f'.getLsbD 4 = s.regs.f.getLsbD 4 ∧ f' &&& 0x0F#8 = s.regs.f &&& 0x0F#8 ∧
    (FlagNibbleClear s → f' = (if b' = 0#8 then 0x80#8 else 0#8) ||| 0x40#8 |||
      (if s.regs.b &&& 0x0F#8 = 0#8 then 0x20#8 else 0#8) ||| (s.regs.f &&& 0x10#8))

/-- 43_alu8.md R97, "Repeating the instruction 256 times returns `b` to its starting value": after `n` times b is `n` less
modulo 256 and C is what it was. That only b and f have changed is 40_engine_step.md R82 and decision D9 (log entry 6). -/
def Obligations.DecBRepeatedCountsDown : Prop :=
  ∀ (n : Nat) (s : State), ∃ b' f' : Byte,
    repeatExec .decB n s = .next { s with regs := { s.regs with b := b', f := f' } } ∧
    (b'.toNat + n) % 256 = s.regs.b.toNat ∧ f'.getLsbD 4 = s.regs.f.getLsbD 4

/-- 40_engine_step.md R82, for all six instructions (decision D9, log entry 6): every effect completes and changes only what
its rule names: XOR A a and f, DEC B b and f, LD HL,d16 h and l, the two jumps pc, NOP nothing. No form stores to memory,
so every address reads as before. -/
def Obligations.InstructionsKeepTheirFrame : Prop :=
  ∀ (i : Instr) (s : State), ∃ t, exec i s = .next t ∧ SameUntouched s t ∧ SameMemory s t ∧
    (i ≠ .xorA → t.regs.a = s.regs.a) ∧ (i ≠ .decB → t.regs.b = s.regs.b) ∧
    ((∀ v, i ≠ .ldHLd16 v) → t.regs.h = s.regs.h ∧ t.regs.l = s.regs.l) ∧
    (i ≠ .xorA → i ≠ .decB → t.regs.f = s.regs.f) ∧
    ((∀ v, i ≠ .jpA16 v) → (∀ v, i ≠ .jrNZr8 v) → t.regs.pc = s.regs.pc)

/-! ## The whole machine -/

/-- The invariant holds at reset and at power-up of every loaded image: the flag byte's low nibble is zero (10_state.md R15)
and the memory is in the model's canonical form (log entry 3). `State.reset` is the model's choice (log entry 1). -/
def Obligations.InvariantHoldsAtPowerUp : Prop :=
  Inv State.reset ∧ ∀ (p : Params) (image : List Byte) (s : State) (t : List Byte), boot p image = .ok (s, t) → Inv s

/-- Every step keeps the invariant: the flag byte's low nibble is zero (10_state.md R15) and the memory is in the model's
canonical form (the model's own, log entry 3; no rule of the spec says it). -/
def Obligations.EveryStepKeepsTheInvariant : Prop :=
  ∀ s t : State, Inv s → step s = .next t → Inv t

/-- No step writes c, d, e, sp (10_state.md R12, R18), a byte of memory (20_memory.md R54) or, when it answers a next state,
the latch (40_engine_step.md R82; decision D10, log entry 11). A frame over all six instructions rests on decision D9 (log
entry 6). -/
def Obligations.NoStepWritesTheUntouchedState : Prop :=
  ∀ s t : State, step s = .next t → SameUntouched s t ∧ SameMemory s t

/-- 43_alu8.md R96, "nothing sets it": a step that starts with C clear ends with C clear. That the instructions whose rules do
not name C leave it is decision D9 (log entry 6). -/
def Obligations.NoStepSetsCarry : Prop :=
  ∀ s t : State, step s = .next t → t.flag .c = true → s.flag .c = true

/-- Every state a booted machine reaches (70_reset_and_hazards.md R127, R130; 10_state.md R12, R15, R18, R22): its image is
valid and is the one that was loaded, c, d, e and sp hold their power-up values, C is clear, the low nibble of f is zero,
and it is running. It rests on decisions D9 (log entry 6) and D10 (log entry 11). -/
def Obligations.ReachableStatesOfALoadedMachine : Prop :=
  ∀ (p : Params) (image : List Byte) (s t : State) (name : List Byte) (n : Nat), boot p image = .ok (s, name) →
    RunsTo n s t →
    ValidImage p image ∧ t.mem = Memory.ofImage image ∧ t.status = .running ∧ FlagNibbleClear t ∧ t.flag .c = false ∧
      t.regs.c = 0x13#8 ∧ t.regs.d = 0x00#8 ∧ t.regs.e = 0xD8#8 ∧ t.regs.sp = 0xFFFE#16

/-- 42_jumps.md R91: a jump to its own address is an endless loop that leaves the state exactly as it was (operand addresses
modulo 2^16: decision D5, log entry 5). -/
def Obligations.JumpToItselfRunsForever : Prop :=
  ∀ s : State, s.status = .running → BytesAt s s.regs.pc (encode (.jpA16 s.regs.pc)) →
    FaultFree s ∧ ∀ n, RunsTo n s s

/-- 20_memory.md R31 (the address width is decision D15, log entry 22): image bytes at offsets of 0x10000 and above influence
no step. -/
def Obligations.BytesAbove64KInfluenceNothing : Prop :=
  ∀ s t : State, SameBelow64K s t → SameOutcome (step s) (step t) ∧ ∀ s' t', step s = .next s' → step t = .next t' →
    SameBelow64K s' t'

/-- Placing a table word where the machine fetches makes the next step run exactly the instruction the decoder reads from
it, from any state whose memory is in its canonical form (the model's own operation, log entry 2). -/
def Obligations.PlacedWordIsTheNextInstruction : Prop :=
  ∀ (s : State) (nbits w : Nat) (i : Instr), s.mem.wf = true → decodeTableWord nbits w = some i →
    step (s.withFetchWord nbits w) =
      exec i ((s.withFetchWord nbits w).setPc (s.regs.pc + BitVec.ofNat 16 i.length)) ∧
    (s.withFetchWord nbits w).regs = s.regs

/-- Every step keeps what holds of a booted machine: the memory is the image that was loaded (20_memory.md R54), the latch
is Running (40_engine_step.md R82; decision D10, log entry 11), the low nibble of f is zero (10_state.md R15), C is clear
(43_alu8.md R96), and c, d, e and sp hold their power-up values (10_state.md R12, R18). It rests on decision D9 (log
entry 6). -/
def Obligations.EveryStepKeepsTheBootedMachine : Prop :=
  ∀ (image : List Byte) (s t : State), BootedWith image s → step s = .next t → BootedWith image t

/-- The power-up of every image that loads is a booted machine (70_reset_and_hazards.md R125, R127; 10_state.md R26, its
flag byte by decision D21, log entry 18). -/
def Obligations.BootGivesABootedMachine : Prop :=
  ∀ (p : Params) (image : List Byte) (s : State) (name : List Byte), boot p image = .ok (s, name) → BootedWith image s
end

