-- ==== Sys2Proof/Laws/Memory.lean ====
section
/-! SUPPORT. Laws of the cartridge memory: read after write, the canonical form is kept by every operation, an image reads
back byte for byte. -/

namespace Sys2Proof.Machine

/-! ## Cells -/

theorem cellByte_of_lt (cells : List Host.Cell) (lo len k : Nat) (h : cellsWf lo len cells = true) (hk : k < lo) :
    cellByte cells k = blankByte := by
  induction cells generalizing lo with
  | nil => rfl
  | cons c rest ih =>
    obtain ⟨a, v⟩ := c
    simp only [cellsWf, Bool.and_eq_true, decide_eq_true_eq] at h
    have hne : a ≠ k := by omega
    simpa [cellByte, hne] using ih (a + 1) h.2 (by omega)

theorem cellsWf_mono (cells : List Host.Cell) (lo lo' len len' : Nat) (h : cellsWf lo len cells = true)
    (hlo : lo' ≤ lo) (hlen : len ≤ len') : cellsWf lo' len' cells = true := by
  induction cells generalizing lo lo' with
  | nil => rfl
  | cons c rest ih =>
    obtain ⟨a, v⟩ := c
    simp only [cellsWf, Bool.and_eq_true, decide_eq_true_eq] at h ⊢
    exact ⟨⟨⟨by omega, by omega⟩, h.1.2⟩, ih (a + 1) (a + 1) h.2 (Nat.le_refl _)⟩

/-- Setting a byte keeps the cells canonical. -/
theorem setCell_wf (cells : List Host.Cell) (lo len k : Nat) (v : Byte) (h : cellsWf lo len cells = true)
    (hlo : lo ≤ k) (hk : k < len) : cellsWf lo len (setCell cells k v) = true := by
  induction cells generalizing lo with
  | nil =>
    by_cases hv : v = blankByte <;> simp [setCell, cellsWf, hv, hlo, hk]
  | cons c rest ih =>
    obtain ⟨a, w⟩ := c
    simp only [cellsWf, Bool.and_eq_true, decide_eq_true_eq] at h
    obtain ⟨⟨⟨h₁, h₂⟩, h₃⟩, h₄⟩ := h
    simp only [setCell]
    split
    · split
      · simp [cellsWf, h₁, h₂, h₃, h₄]
      · rename_i hlt hv
        simp [cellsWf, h₂, h₃, h₄, hlo, hk, hv, Nat.succ_le_of_lt hlt]
    · split
      · rename_i heq
        split
        · exact cellsWf_mono _ _ _ _ _ h₄ (by omega) (Nat.le_refl _)
        · rename_i hv
          subst heq
          simp [cellsWf, hlo, hk, hv, h₄]
      · simp [cellsWf, h₁, h₂, h₃, ih (a + 1) h₄ (by omega)]

/-- Reading after setting: the byte set, and every other byte as before. -/
theorem cellByte_setCell (cells : List Host.Cell) (lo len k j : Nat) (v : Byte) (h : cellsWf lo len cells = true) :
    cellByte (setCell cells k v) j = if j = k then v else cellByte cells j := by
  induction cells generalizing lo with
  | nil =>
    by_cases hj : j = k
    · by_cases hv : v = blankByte <;> simp [setCell, cellByte, hv, hj]
    · by_cases hv : v = blankByte <;> simp [setCell, cellByte, hv, hj, Ne.symm hj]
  | cons c rest ih =>
    obtain ⟨a, w⟩ := c
    simp only [cellsWf, Bool.and_eq_true, decide_eq_true_eq] at h
    obtain ⟨⟨⟨h₁, h₂⟩, h₃⟩, h₄⟩ := h
    have below : ∀ i, i ≤ a → cellByte rest i = blankByte := fun i hi =>
      cellByte_of_lt rest (a + 1) len i h₄ (by omega)
    by_cases hjk : j = k
    · subst hjk
      rcases Nat.lt_trichotomy j a with hlt | heq | hgt
      · by_cases hv : v = blankByte
        · simp [setCell, hlt, hv, cellByte, Nat.ne_of_gt hlt, below j (by omega)]
        · simp [setCell, hlt, hv, cellByte]
      · by_cases hv : v = blankByte
        · simp [setCell, heq, hv, below a (Nat.le_refl _)]
        · simp [setCell, heq, hv, cellByte]
      · have h₅ : ¬ j < a := by omega
        have h₆ : ¬ j = a := by omega
        have h₇ : ¬ a = j := by omega
        simp [setCell, h₅, h₆, cellByte, h₇, ih (a + 1) h₄]
    · rcases Nat.lt_trichotomy k a with hlt | heq | hgt
      · by_cases hv : v = blankByte
        · simp [setCell, hlt, hv, hjk]
        · simp [setCell, hlt, hv, hjk, cellByte, Ne.symm hjk]
      · subst heq
        by_cases hv : v = blankByte <;> simp [setCell, hv, hjk, cellByte, Ne.symm hjk]
      · have h₅ : ¬ k < a := by omega
        have h₆ : ¬ k = a := by omega
        simp [setCell, h₅, h₆, cellByte, ih (a + 1) h₄, hjk]

/-- Consecutive bytes make canonical cells. -/
theorem cellsFrom_wf (k : Nat) (image : List Byte) : cellsWf k (k + image.length) (cellsFrom k image) = true := by
  induction image generalizing k with
  | nil => rfl
  | cons v rest ih =>
    have h := ih (k + 1)
    simp only [cellsFrom, List.length_cons]
    have e : k + 1 + rest.length = k + (rest.length + 1) := by omega
    rw [e] at h
    split
    · exact cellsWf_mono _ _ _ _ _ h (by omega) (Nat.le_refl _)
    · rename_i hv
      simp [cellsWf, hv, h]

/-- Consecutive bytes read back. -/
theorem cellByte_cellsFrom (k j : Nat) (image : List Byte) :
    cellByte (cellsFrom k image) (k + j) = image.getD j blankByte := by
  induction image generalizing k j with
  | nil => rfl
  | cons v rest ih =>
    cases j with
    | zero =>
      by_cases hv : v = blankByte
      · have h := cellsFrom_wf (k + 1) rest
        simpa [cellsFrom, hv] using cellByte_of_lt _ _ _ k h (by omega)
      · simp [cellsFrom, hv, cellByte]
    | succ j =>
      have h := ih (k + 1) j
      have e : k + (j + 1) = k + 1 + j := by omega
      by_cases hv : v = blankByte
      · simpa [cellsFrom, hv, e] using h
      · have hne : ¬ k = k + 1 + j := by omega
        simpa [cellsFrom, hv, e, cellByte, hne] using h

/-! ## The memory -/

@[simp] theorem Memory.ofImage_variant (image : List Byte) : (Memory.ofImage image).variant = .romOnly := rfl
@[simp] theorem Memory.ofImage_length (image : List Byte) : (Memory.ofImage image).length = image.length := rfl
@[simp] theorem Memory.setByte_variant (m : Memory) (k : Nat) (v : Byte) : (m.setByte k v).variant = m.variant := rfl
@[simp] theorem Memory.setByte_length (m : Memory) (k : Nat) (v : Byte) :
    (m.setByte k v).length = max m.length (k + 1) := rfl

/-- The memory of an image is in its canonical form. -/
theorem Memory.ofImage_wf (image : List Byte) : (Memory.ofImage image).wf = true := by
  simpa [Memory.wf, Memory.ofImage] using cellsFrom_wf 0 image

/-- A memory without an image is in its canonical form. -/
theorem Memory.absent_wf : Memory.absent.wf = true := rfl

/-- Placing a byte keeps the canonical form. -/
theorem Memory.setByte_wf (m : Memory) (k : Nat) (v : Byte) (h : m.wf = true) : (m.setByte k v).wf = true := by
  have grown : cellsWf 0 (max m.length (k + 1)) m.cells = true :=
    cellsWf_mono _ _ 0 _ _ h (Nat.le_refl _) (Nat.le_max_left _ _)
  exact setCell_wf _ _ _ _ _ grown (Nat.zero_le _) (Nat.le_max_right _ _)

/-- Reading after placing a byte. -/
theorem Memory.byteAt_setByte (m : Memory) (k j : Nat) (v : Byte) (h : m.wf = true) :
    (m.setByte k v).byteAt j = if j = k then v else m.byteAt j :=
  cellByte_setCell m.cells 0 m.length k j v h

/-- The memory of an image holds its bytes. -/
@[simp] theorem Memory.byteAt_ofImage (image : List Byte) (k : Nat) :
    (Memory.ofImage image).byteAt k = image.getD k blankByte := by
  simpa [Memory.byteAt, Memory.ofImage] using cellByte_cellsFrom 0 k image

/-- Everything a read can answer. -/
theorem Memory.read_eq (m : Memory) (addr : Word) :
    m.read addr = if addr.toNat < m.length then some (m.byteAt addr.toNat) else none := by
  obtain ⟨⟨⟩, length, cells⟩ := m
  rfl

/-- A write fails. -/
@[simp] theorem Memory.write_eq_none (m : Memory) (addr : Word) (v : Byte) : m.write addr v = none := by
  obtain ⟨⟨⟩, length, cells⟩ := m
  rfl

/-- A header byte of a long enough image is the byte of the image. -/
theorem Memory.headerByte_ofImage (image : List Byte) (k : Nat) (hk : k < 0x150) (h : 0x150 ≤ image.length) :
    (Memory.ofImage image).headerByte k = image.getD k 0#8 := by
  have e : (BitVec.ofNat 16 k).toNat = k := by simp; omega
  simp [Memory.headerByte, Memory.read_eq, e, show k < image.length by omega, blankByte]

end Sys2Proof.Machine
end

