-- ==== Sys2Proof/Laws/State.lean ====
section
/-! SUPPORT. One lemma per field of the state per update. -/

namespace Sys2Proof.Machine

variable (s : State)

@[simp] theorem State.setPc_regs (v : Word) : (s.setPc v).regs = { s.regs with pc := v } := rfl
@[simp] theorem State.setPc_mem (v : Word) : (s.setPc v).mem = s.mem := rfl
@[simp] theorem State.setPc_status (v : Word) : (s.setPc v).status = s.status := rfl

@[simp] theorem State.setA_regs (v : Byte) : (s.setA v).regs = { s.regs with a := v } := rfl
@[simp] theorem State.setA_mem (v : Byte) : (s.setA v).mem = s.mem := rfl
@[simp] theorem State.setA_status (v : Byte) : (s.setA v).status = s.status := rfl

@[simp] theorem State.setB_regs (v : Byte) : (s.setB v).regs = { s.regs with b := v } := rfl
@[simp] theorem State.setB_mem (v : Byte) : (s.setB v).mem = s.mem := rfl
@[simp] theorem State.setB_status (v : Byte) : (s.setB v).status = s.status := rfl

@[simp] theorem State.setF_regs (v : Byte) : (s.setF v).regs = { s.regs with f := v } := rfl
@[simp] theorem State.setF_mem (v : Byte) : (s.setF v).mem = s.mem := rfl
@[simp] theorem State.setF_status (v : Byte) : (s.setF v).status = s.status := rfl

@[simp] theorem State.setPair_regs (p : Pair) (v : Word) : (s.setPair p v).regs = writePair s.regs p v := rfl
@[simp] theorem State.setPair_mem (p : Pair) (v : Word) : (s.setPair p v).mem = s.mem := rfl
@[simp] theorem State.setPair_status (p : Pair) (v : Word) : (s.setPair p v).status = s.status := rfl

@[simp] theorem State.takeFault_regs (cause : Fault) : (s.takeFault cause).regs = s.regs := rfl
@[simp] theorem State.takeFault_mem (cause : Fault) : (s.takeFault cause).mem = s.mem := rfl
@[simp] theorem State.takeFault_status (cause : Fault) : (s.takeFault cause).status = .faulted cause := rfl

@[simp] theorem State.snapshot_eq : s.snapshot = s.regs := rfl

@[simp] theorem State.powerUp_regs (m : Memory) : (State.powerUp m).regs = RegisterFile.powerUp := rfl
@[simp] theorem State.powerUp_mem (m : Memory) : (State.powerUp m).mem = m := rfl
@[simp] theorem State.powerUp_status (m : Memory) : (State.powerUp m).status = .running := rfl

end Sys2Proof.Machine
end

