-- ==== Sys2Proof/Laws/Ops.lean ====
section
/-! SUPPORT. One lemma per shared operation: everything it can do. -/

namespace Sys2Proof.Machine

/-! ## Words and flags -/

theorem joinWord_toNat (hi lo : Byte) : (joinWord hi lo).toNat = hi.toNat * 256 + lo.toNat := by
  have := lo.isLt
  rw [joinWord, BitVec.toNat_append, ← Nat.shiftLeft_add_eq_or_of_lt (by omega), Nat.shiftLeft_eq]

theorem hiByte_toNat (v : Word) : (hiByte v).toNat = v.toNat / 256 := by
  have := v.isLt
  simp [hiByte, Nat.shiftRight_eq_div_pow]
  omega

theorem loByte_toNat (v : Word) : (loByte v).toNat = v.toNat % 256 := by
  simp [loByte]

@[simp] theorem hiByte_joinWord (hi lo : Byte) : hiByte (joinWord hi lo) = hi := by
  have := lo.isLt
  exact BitVec.eq_of_toNat_eq (by rw [hiByte_toNat, joinWord_toNat]; omega)

@[simp] theorem loByte_joinWord (hi lo : Byte) : loByte (joinWord hi lo) = lo := by
  have := lo.isLt
  exact BitVec.eq_of_toNat_eq (by rw [loByte_toNat, joinWord_toNat]; omega)

@[simp] theorem joinWord_hiByte_loByte (v : Word) : joinWord (hiByte v) (loByte v) = v :=
  BitVec.eq_of_toNat_eq (by rw [joinWord_toNat, hiByte_toNat, loByte_toNat]; omega)

theorem sext16_toInt (v : Byte) : (sext16 v).toInt = v.toInt := by
  simp [sext16, BitVec.toInt_signExtend_of_le]

/-! ## Memory accesses -/

/-- `MemRead(addr, 1)`. -/
theorem memRead_eq (s : State) (addr : Word) :
    memRead s addr =
      if addr.toNat < s.mem.length then .ok (s.mem.byteAt addr.toNat) else .error (.readOutOfRange addr) := by
  by_cases h : addr.toNat < s.mem.length <;> simp [memRead, Memory.read_eq, h]

/-- A read that faults reports its own address. -/
theorem memRead_error {s : State} {addr : Word} {e : Fault} (h : memRead s addr = .error e) :
    e = .readOutOfRange addr := by
  rw [memRead_eq] at h
  split at h <;> simp_all

/-- A read sees the memory only. -/
theorem memRead_congr {s t : State} (h : t.mem = s.mem) (addr : Word) : memRead t addr = memRead s addr := by
  simp [memRead, h]

@[simp] theorem memRead_setPc (s : State) (v addr : Word) : memRead (s.setPc v) addr = memRead s addr := rfl

/-! ## Fetches -/

theorem fetch8_ok {s : State} {v : Byte} (h : memRead s s.regs.pc = .ok v) :
    fetch8 s = .ok (v, s.setPc (s.regs.pc + 1#16)) := by
  simp [fetch8, h, nextPc]

theorem fetch8_error {s : State} {e : Fault} (h : memRead s s.regs.pc = .error e) :
    fetch8 s = .error (.readOutOfRange s.regs.pc) := by
  rw [memRead_error h] at h
  simp [fetch8, h]

/-- Everything a fetch can do. -/
theorem fetch8_cases (s : State) :
    (∃ v, memRead s s.regs.pc = .ok v ∧ fetch8 s = .ok (v, s.setPc (s.regs.pc + 1#16))) ∨
    (memRead s s.regs.pc = .error (.readOutOfRange s.regs.pc) ∧ fetch8 s = .error (.readOutOfRange s.regs.pc)) := by
  cases h : memRead s s.regs.pc with
  | ok v => exact .inl ⟨v, rfl, fetch8_ok h⟩
  | error e => exact .inr ⟨by rw [memRead_error h], fetch8_error h⟩

@[simp] theorem setPc_setPc (s : State) (v w : Word) : (s.setPc v).setPc w = s.setPc w := rfl

/-- Everything a word fetch can do. -/
theorem fetch16_cases (s : State) :
    (∃ lo hi, memRead s s.regs.pc = .ok lo ∧ memRead s (s.regs.pc + 1#16) = .ok hi ∧
      fetch16 s = .ok (joinWord hi lo, s.setPc (s.regs.pc + 2#16))) ∨
    (memRead s s.regs.pc = .error (.readOutOfRange s.regs.pc) ∧ fetch16 s = .error (.readOutOfRange s.regs.pc)) ∨
    (∃ lo, memRead s s.regs.pc = .ok lo ∧
      memRead s (s.regs.pc + 1#16) = .error (.readOutOfRange (s.regs.pc + 1#16)) ∧
      fetch16 s = .error (.readOutOfRange (s.regs.pc + 1#16))) := by
  obtain ⟨lo, hlo, h₁⟩ | ⟨hlo, h₁⟩ := fetch8_cases s
  · obtain ⟨hi, hhi, h₂⟩ | ⟨hhi, h₂⟩ := fetch8_cases (s.setPc (s.regs.pc + 1#16))
    · refine .inl ⟨lo, hi, hlo, by simpa using hhi, ?_⟩
      simp only [fetch16, fetchWord, h₁, h₂]
      simp [BitVec.add_assoc]
    · refine .inr (.inr ⟨lo, hlo, by simpa using hhi, ?_⟩)
      simp only [fetch16, fetchWord, h₁, h₂]
      rfl
  · exact .inr (.inl ⟨hlo, by simp [fetch16, fetchWord, h₁]⟩)

end Sys2Proof.Machine
end

