-- ==== Sys2Proof/Laws/Decode.lean ====
section
/-! SUPPORT. Laws of the table and of the decoder over any byte source. -/

namespace Sys2Proof

/-- The six live entries. -/
@[simp] theorem lookup_nop : lookup 0x00#8 = some OpKind.nop.row := rfl
@[simp] theorem lookup_decB : lookup 0x05#8 = some OpKind.decB.row := rfl
@[simp] theorem lookup_jrNZ : lookup 0x20#8 = some OpKind.jrNZ.row := rfl
@[simp] theorem lookup_ldHL : lookup 0x21#8 = some OpKind.ldHL.row := rfl
@[simp] theorem lookup_xorA : lookup 0xAF#8 = some OpKind.xorA.row := rfl
@[simp] theorem lookup_jp : lookup 0xC3#8 = some OpKind.jp.row := rfl

@[simp] theorem OpKind.row_effect (k : OpKind) : k.row.effect = k := by cases k <;> rfl

/-- Everything a lookup can answer: the row of the kind whose key the opcode is. -/
theorem lookup_some {op : Byte} {row : Row} (h : lookup op = some row) : ∃ k : OpKind, row = k.row ∧ k.row.opcode = op := by
  have hmem := List.mem_of_find?_eq_some h
  have hkey : row.opcode = op := by simpa using List.find?_some h
  simp only [table, List.mem_cons, List.not_mem_nil, or_false] at hmem
  rcases hmem with rfl | rfl | rfl | rfl | rfl | rfl <;> exact ⟨_, rfl, hkey⟩

/-- The key of every kind finds its row. -/
@[simp] theorem lookup_opcode (k : OpKind) : lookup k.row.opcode = some k.row := by cases k <;> rfl

/-- No entry: the opcode is none of the six keys. -/
theorem lookup_none_iff (op : Byte) : lookup op = none ↔ op ∉ [0x00#8, 0x05#8, 0x20#8, 0x21#8, 0xAF#8, 0xC3#8] := by
  simp only [lookup, lookupIn, table, OpKind.row, List.find?_eq_none, List.mem_cons, List.not_mem_nil, or_false,
    forall_eq_or_imp, forall_eq, beq_iff_eq, not_or]
  simp only [@eq_comm Byte op]

/-- The length in a row is 1 plus the operand bytes of its effect (40_engine_step.md R81). -/
theorem OpKind.row_wellFormed (k : OpKind) : k.row.wellFormed = true := by cases k <;> rfl

theorem table_wellFormed : tableWellFormed table = true := by decide

/-- The decoder's outcomes, for any byte source: the fetch of the opcode, its lookup, the operand. -/
theorem decodeWith_fetched {σ ε : Type} {fetch : σ → Except ε (Byte × σ)} {un : Byte → ε} {s s₁ : σ} {op : Byte}
    (h : fetch s = .ok (op, s₁)) :
    decodeWith fetch un s = match lookup op with
      | none => .error (un op)
      | some row => decodeOperand fetch row.effect s₁ := by
  cases row : lookup op <;> simp [decodeWith, h, row]

theorem decodeWith_error {σ ε : Type} {fetch : σ → Except ε (Byte × σ)} {un : Byte → ε} {s : σ} {e : ε}
    (h : fetch s = .error e) : decodeWith fetch un s = .error e := by
  simp [decodeWith, h]

/-- `decode` on a first byte. -/
theorem decode_cons (op : Byte) (rest : List Byte) :
    decode (op :: rest) = match lookup op with
      | none => .error (.unimplementedOpcode op)
      | some row => decodeOperand popByte row.effect rest :=
  decodeWith_fetched rfl

@[simp] theorem decode_nil : decode [] = .error .truncated := rfl

namespace Machine

/-- The fetch of an instruction whose opcode is readable. -/
theorem fetchInstr_fetched {s : State} {op : Byte} (h : memRead s s.regs.pc = .ok op) :
    fetchInstr s = match lookup op with
      | none => .error (.unimplementedOpcode op s.regs.pc)
      | some row => decodeOperand fetch8 row.effect (s.setPc (s.regs.pc + 1#16)) :=
  decodeWith_fetched (fetch8_ok h)

/-- The fetch of an instruction whose opcode is not readable. -/
theorem fetchInstr_error {s : State} {e : Fault} (h : memRead s s.regs.pc = .error e) :
    fetchInstr s = .error (.readOutOfRange s.regs.pc) :=
  decodeWith_error (fetch8_error h)

/-- What the fetch of an operand can do: the instruction is of the descriptor's kind and `pc` has moved past the operand,
or the first unreadable operand byte faults. -/
theorem decodeOperand_cases (k : OpKind) (s : State) :
    (∃ i : Instr, i.kind = k ∧
      decodeOperand fetch8 k s = .ok (i, s.setPc (s.regs.pc + BitVec.ofNat 16 k.operandBytes))) ∨
    (1 ≤ k.operandBytes ∧ memRead s s.regs.pc = .error (.readOutOfRange s.regs.pc) ∧
      decodeOperand fetch8 k s = .error (.readOutOfRange s.regs.pc)) ∨
    (2 ≤ k.operandBytes ∧ (∃ lo, memRead s s.regs.pc = .ok lo) ∧ memRead s (s.regs.pc + 1#16) = .error (.readOutOfRange (s.regs.pc + 1#16)) ∧
      decodeOperand fetch8 k s = .error (.readOutOfRange (s.regs.pc + 1#16))) := by
  have same : s.setPc (s.regs.pc + BitVec.ofNat 16 0) = s := by simp [State.setPc]
  cases k with
  | nop => exact .inl ⟨.nop, rfl, by simpa [decodeOperand, OpKind.operandBytes] using same.symm⟩
  | decB => exact .inl ⟨.decB, rfl, by simpa [decodeOperand, OpKind.operandBytes] using same.symm⟩
  | xorA => exact .inl ⟨.xorA, rfl, by simpa [decodeOperand, OpKind.operandBytes] using same.symm⟩
  | jrNZ =>
    obtain ⟨v, -, h⟩ | ⟨hr, h⟩ := fetch8_cases s
    · exact .inl ⟨.jrNZr8 v, rfl, by simp only [decodeOperand, h]; rfl⟩
    · exact .inr (.inl ⟨by decide, hr, by simp only [decodeOperand, h]; rfl⟩)
  | ldHL =>
    obtain ⟨lo, hi, -, -, h⟩ | ⟨hr, h⟩ | ⟨lo, hlo, hr, h⟩ := fetch16_cases s <;> rw [fetch16] at h
    · exact .inl ⟨.ldHLd16 (joinWord hi lo), rfl, by simp only [decodeOperand, h]; rfl⟩
    · exact .inr (.inl ⟨by decide, hr, by simp only [decodeOperand, h]; rfl⟩)
    · exact .inr (.inr ⟨by decide, ⟨lo, hlo⟩, hr, by simp only [decodeOperand, h]; rfl⟩)
  | jp =>
    obtain ⟨lo, hi, -, -, h⟩ | ⟨hr, h⟩ | ⟨lo, hlo, hr, h⟩ := fetch16_cases s <;> rw [fetch16] at h
    · exact .inl ⟨.jpA16 (joinWord hi lo), rfl, by simp only [decodeOperand, h]; rfl⟩
    · exact .inr (.inl ⟨by decide, hr, by simp only [decodeOperand, h]; rfl⟩)
    · exact .inr (.inr ⟨by decide, ⟨lo, hlo⟩, hr, by simp only [decodeOperand, h]; rfl⟩)

/-- Everything the fetch of an instruction can do: the state changes in `pc` only, by the length of the instruction; or it
stops with UnimplementedOpcode at `pc`, or with ReadOutOfRange at the lowest unreadable of the addresses it fetches. -/
theorem fetchInstr_cases (s : State) :
    (∃ (i : Instr) (op : Byte), memRead s s.regs.pc = .ok op ∧ lookup op = some i.kind.row ∧
      fetchInstr s = .ok (i, s.setPc (s.regs.pc + BitVec.ofNat 16 i.length))) ∨
    (∃ op, memRead s s.regs.pc = .ok op ∧ lookup op = none ∧
      fetchInstr s = .error (.unimplementedOpcode op s.regs.pc)) ∨
    (∃ k : Nat, k < 3 ∧ (∀ j, j < k → ∃ v, memRead s (s.regs.pc + BitVec.ofNat 16 j) = .ok v) ∧
      memRead s (s.regs.pc + BitVec.ofNat 16 k) = .error (.readOutOfRange (s.regs.pc + BitVec.ofNat 16 k)) ∧
      fetchInstr s = .error (.readOutOfRange (s.regs.pc + BitVec.ofNat 16 k))) := by
  cases h : memRead s s.regs.pc with
  | error e =>
    rw [memRead_error h] at h
    exact .inr (.inr ⟨0, by decide, by simp, by simpa using h, by simpa using fetchInstr_error h⟩)
  | ok op =>
    have hf := fetchInstr_fetched h
    cases hl : lookup op with
    | none =>
      rw [hl] at hf
      exact .inr (.inl ⟨op, rfl, hl, hf⟩)
    | some row =>
      obtain ⟨k, rfl, hop⟩ := lookup_some hl
      rw [hl] at hf
      simp only [OpKind.row_effect] at hf
      obtain ⟨i, rfl, hd⟩ | ⟨-, hr, hd⟩ | ⟨-, ⟨lo, hlo⟩, hr, hd⟩ := decodeOperand_cases k (s.setPc (s.regs.pc + 1#16))
      · refine .inl ⟨i, op, rfl, hl, ?_⟩
        rw [hf, hd]
        simp [Instr.length, BitVec.add_assoc, BitVec.ofNat_add]
      · refine .inr (.inr ⟨1, by decide, fun j hj => ⟨op, ?_⟩, by simpa using hr, by rw [hf, hd]; rfl⟩)
        obtain rfl : j = 0 := by omega
        simpa using h
      · refine .inr (.inr ⟨2, by decide, fun j hj => ?_, by simpa [BitVec.add_assoc] using hr, ?_⟩)
        · obtain rfl | rfl : j = 0 ∨ j = 1 := by omega
          · exact ⟨op, by simpa using h⟩
          · exact ⟨lo, by simpa using hlo⟩
        rw [hf, hd]
        simp [BitVec.add_assoc]

end Machine

end Sys2Proof
end

