-- ==== Sys2Proof/Laws/Flags.lean ====
section
/-! SUPPORT. What a write of one flag leaves of the flag byte. -/

namespace Sys2Proof.Machine

/-- Every bit of the flag byte after a write of one flag. -/
theorem getLsbD_writeFlag (x : Flag) (v : Bool) (f : Byte) (i : Nat) (hi : i < 8) :
    (writeFlag x v f).getLsbD i = if i = x.bit then v else f.getLsbD i := by
  have bits : i = 0 ∨ i = 1 ∨ i = 2 ∨ i = 3 ∨ i = 4 ∨ i = 5 ∨ i = 6 ∨ i = 7 := by omega
  rcases bits with rfl | rfl | rfl | rfl | rfl | rfl | rfl | rfl <;> cases x <;> cases v <;>
    simp [writeFlag, Flag.bit, Flag.keep]

/-- Reading a flag after a write of a flag. -/
@[simp] theorem readFlag_writeFlag (x y : Flag) (v : Bool) (f : Byte) :
    readFlag x (writeFlag y v f) = if x = y then v else readFlag x f := by
  rw [readFlag, getLsbD_writeFlag _ _ _ _ (by cases x <;> decide)]
  cases x <;> cases y <;> rfl

/-- The low nibble of the flag byte is no flag's (10_state.md R15). -/
@[simp] theorem writeFlag_lowNibble (x : Flag) (v : Bool) (f : Byte) : writeFlag x v f &&& 0x0F#8 = f &&& 0x0F#8 := by
  apply BitVec.eq_of_getLsbD_eq
  intro i hi
  rw [BitVec.getLsbD_and, BitVec.getLsbD_and, getLsbD_writeFlag _ _ _ _ hi]
  by_cases h : i = x.bit
  · have mask : (0x0F#8).getLsbD i = false := by subst h; cases x <;> rfl
    simp [mask]
  · simp [h]

end Sys2Proof.Machine
end

