-- ==== Sys2Proof/Laws/Exec.lean ====
section
/-! SUPPORT. What the meanings and the step do, said once. -/

namespace Sys2Proof.Machine

@[simp] theorem exec_nop (s : State) : exec .nop s = .next s := rfl

@[simp] theorem exec_jpA16 (a16 : Word) (s : State) : exec (.jpA16 a16) s = .next (s.setPc a16) := rfl

@[simp] theorem exec_ldHLd16 (d16 : Word) (s : State) : exec (.ldHLd16 d16) s = .next (s.setPair .hl d16) := rfl

@[simp] theorem exec_xorA (s : State) :
    exec .xorA s = .next ((s.setA (aluXor s.regs.a s.regs.a)).setF (xorFlags (aluXor s.regs.a s.regs.a) s.regs.f)) := rfl

@[simp] theorem exec_decB (s : State) :
    exec .decB s = .next ((s.setB (aluDec s.regs.b)).setF (decFlags s.regs.b (aluDec s.regs.b) s.regs.f)) := rfl

theorem exec_jrNZr8_taken {s : State} (r8 : Byte) (h : s.flag .z = false) :
    exec (.jrNZr8 r8) s = .next (s.setPc (relativeTarget s.regs.pc r8)) := by
  simp [exec, execJrNZr8, h]

theorem exec_jrNZr8_notTaken {s : State} (r8 : Byte) (h : s.flag .z = true) : exec (.jrNZr8 r8) s = .next s := by
  simp [exec, execJrNZr8, h]

/-- A meaning answers a next state with the same memory and latch, on every instruction. -/
theorem exec_next (i : Instr) (s : State) : ∃ t, exec i s = .next t ∧ t.mem = s.mem ∧ t.status = s.status := by
  cases i with
  | nop => exact ⟨_, rfl, rfl, rfl⟩
  | decB => exact ⟨_, rfl, rfl, rfl⟩
  | ldHLd16 d16 => exact ⟨_, rfl, rfl, rfl⟩
  | xorA => exact ⟨_, rfl, rfl, rfl⟩
  | jpA16 a16 => exact ⟨_, rfl, rfl, rfl⟩
  | jrNZr8 r8 =>
    cases h : s.flag .z with
    | true => exact ⟨_, exec_jrNZr8_notTaken r8 h, rfl, rfl⟩
    | false => exact ⟨_, exec_jrNZr8_taken r8 h, rfl, rfl⟩

/-! ## Instructions in memory -/

@[simp] theorem bytesAt_nil (s : State) (addr : Word) : BytesAt s addr [] := trivial

theorem bytesAt_cons (s : State) (addr : Word) (v : Byte) (rest : List Byte) :
    BytesAt s addr (v :: rest) ↔ memRead s addr = .ok v ∧ BytesAt s (addr + 1#16) rest := Iff.rfl

/-- The first bytes of those that stand somewhere. -/
theorem bytesAt_of_append {s : State} {addr : Word} {front back : List Byte} (h : BytesAt s addr (front ++ back)) :
    BytesAt s addr front := by
  induction front generalizing addr with
  | nil => trivial
  | cons v front ih => exact ⟨h.1, ih h.2⟩

@[simp] theorem bytesAt_setPc (s : State) (v addr : Word) (bytes : List Byte) :
    BytesAt (s.setPc v) addr bytes ↔ BytesAt s addr bytes := by
  induction bytes generalizing addr with
  | nil => exact Iff.rfl
  | cons x rest ih => simp [bytesAt_cons, ih]

/-- The fetch reads the instruction whose encoding stands at `pc`. -/
theorem fetchInstr_of_bytesAt {s : State} {i : Instr} (h : BytesAt s s.regs.pc (encode i)) :
    fetchInstr s = .ok (i, s.setPc (s.regs.pc + BitVec.ofNat 16 i.length)) := by
  cases i <;> rw [fetchInstr_fetched h.1]
  case nop => rfl
  case decB => rfl
  case xorA => rfl
  case jrNZr8 r8 =>
    have operand := fetch8_ok (s := s.setPc (s.regs.pc + 1#16)) h.2.1
    simp [decodeOperand, operand, Except.map, BitVec.add_assoc, Instr.length, Instr.kind, OpKind.operandBytes]
  case ldHLd16 d16 =>
    have low := fetch8_ok (s := s.setPc (s.regs.pc + 1#16)) h.2.1
    have high := fetch8_ok (s := s.setPc (s.regs.pc + 1#16 + 1#16)) h.2.2.1
    simp only [State.setPc_regs, setPc_setPc] at low high
    simp only [lookup_ldHL, OpKind.row_effect, decodeOperand, fetchWord, low, high]
    simp [Except.map, BitVec.add_assoc, Instr.length, Instr.kind, OpKind.operandBytes]
  case jpA16 a16 =>
    have low := fetch8_ok (s := s.setPc (s.regs.pc + 1#16)) h.2.1
    have high := fetch8_ok (s := s.setPc (s.regs.pc + 1#16 + 1#16)) h.2.2.1
    simp only [State.setPc_regs, setPc_setPc] at low high
    simp only [lookup_jp, OpKind.row_effect, decodeOperand, fetchWord, low, high]
    simp [Except.map, BitVec.add_assoc, Instr.length, Instr.kind, OpKind.operandBytes]

/-- The operand bytes of a decoded instruction stand where it fetched them. -/
theorem bytesAt_of_decodeOperand {k : OpKind} {s s' : State} {i : Instr} (h : decodeOperand fetch8 k s = .ok (i, s')) :
    ∃ operands, encode i = k.row.opcode :: operands ∧ BytesAt s s.regs.pc operands := by
  cases k <;> simp only [decodeOperand] at h
  case nop => cases h; exact ⟨[], rfl, trivial⟩
  case decB => cases h; exact ⟨[], rfl, trivial⟩
  case xorA => cases h; exact ⟨[], rfl, trivial⟩
  case jrNZ =>
    obtain ⟨v, hv, h8⟩ | ⟨-, h8⟩ := fetch8_cases s <;> rw [h8] at h <;> cases h
    exact ⟨[v], rfl, hv, trivial⟩
  case ldHL =>
    obtain ⟨lo, hi, h₁, h₂, h16⟩ | ⟨-, h16⟩ | ⟨lo, -, -, h16⟩ := fetch16_cases s <;> rw [fetch16] at h16 <;>
      rw [h16] at h <;> cases h
    exact ⟨[lo, hi], by simp [encode, OpKind.row], h₁, h₂, trivial⟩
  case jp =>
    obtain ⟨lo, hi, h₁, h₂, h16⟩ | ⟨-, h16⟩ | ⟨lo, -, -, h16⟩ := fetch16_cases s <;> rw [fetch16] at h16 <;>
      rw [h16] at h <;> cases h
    exact ⟨[lo, hi], by simp [encode, OpKind.row], h₁, h₂, trivial⟩

/-- A fetched instruction's encoding stands at `pc`. -/
theorem bytesAt_of_fetchInstr {s s' : State} {i : Instr} (h : fetchInstr s = .ok (i, s')) :
    BytesAt s s.regs.pc (encode i) := by
  obtain ⟨op, hop, -⟩ | ⟨hop, -⟩ := fetch8_cases s
  · rw [fetchInstr_fetched hop] at h
    cases hl : lookup op with
    | none => rw [hl] at h; cases h
    | some row =>
      obtain ⟨k, rfl, rfl⟩ := lookup_some hl
      rw [hl] at h
      simp only [OpKind.row_effect] at h
      obtain ⟨operands, he, hb⟩ := bytesAt_of_decodeOperand h
      rw [he]
      exact ⟨hop, by simpa using hb⟩
  · rw [fetchInstr_error hop] at h; cases h

/-! ## The step -/

/-- A running machine's step, by what its fetch answers. -/
theorem step_running {s : State} (h : s.status = .running) :
    step s = match fetchInstr s with
      | .error cause => .fault cause
      | .ok (i, s') => exec i s' := by
  cases fetched : fetchInstr s <;> simp [step, h, fetched]

theorem step_faulted {s : State} {cause : Fault} (h : s.status = .faulted cause) : step s = .fault cause := by
  simp [step, h]

/-- Everything behind a step that answers a next state: the machine was running, an instruction was fetched, and its
meaning was applied past its last byte. -/
theorem step_next {s t : State} (h : step s = .next t) :
    s.status = .running ∧ ∃ (i : Instr) (op : Byte), memRead s s.regs.pc = .ok op ∧ lookup op = some i.kind.row ∧
      fetchInstr s = .ok (i, s.setPc (s.regs.pc + BitVec.ofNat 16 i.length)) ∧
      exec i (s.setPc (s.regs.pc + BitVec.ofNat 16 i.length)) = .next t := by
  cases hs : s.status with
  | faulted cause => rw [step_faulted hs] at h; cases h
  | running =>
    rw [step_running hs] at h
    obtain ⟨i, op, hop, hl, hf⟩ | ⟨op, -, -, hf⟩ | ⟨k, -, -, -, hf⟩ := fetchInstr_cases s <;> rw [hf] at h
    · exact ⟨rfl, i, op, hop, hl, hf, h⟩
    · cases h
    · cases h

/-- A step leaves the memory and the latch as they were. -/
theorem step_next_mem {s t : State} (h : step s = .next t) : t.mem = s.mem ∧ t.status = s.status := by
  obtain ⟨-, i, -, -, -, -, he⟩ := step_next h
  obtain ⟨t', ht, hm, hst⟩ := exec_next i (s.setPc (s.regs.pc + BitVec.ofNat 16 i.length))
  rw [he] at ht
  cases ht
  exact ⟨hm, hst⟩

/-! ## Runs -/

@[simp] theorem run_zero (s : State) : run 0 s = .next s := rfl

theorem run_succ (n : Nat) (s : State) :
    run (n + 1) s = match step s with
      | .next t => run n t
      | .fault cause => .fault cause
      | .refused r => .refused r := rfl

theorem hostRun_next (M : Host.Core) (n : Nat) {s t : M.State} (h : M.step s = .next t) : M.run (n + 1) s = M.run n t := by
  simp [Host.Core.run, h]

theorem hostRun_fault (M : Host.Core) (n : Nat) {s : M.State} {cause : M.Fault} (h : M.step s = .fault cause) :
    M.run (n + 1) s = .fault cause := by
  simp [Host.Core.run, h]

theorem hostRun_refused (M : Host.Core) (n : Nat) {s : M.State} {r : M.Refusal} (h : M.step s = .refused r) :
    M.run (n + 1) s = .refused r := by
  simp [Host.Core.run, h]

/-- The run is the host's. -/
theorem core_run_eq (n : Nat) (s : State) : Sys2Proof.core.run n s = run n s := by
  induction n generalizing s with
  | zero => rfl
  | succ n ih =>
    cases h : step s with
    | next t => exact (hostRun_next Sys2Proof.core n h).trans ((ih t).trans (by rw [run_succ, h]))
    | fault cause => exact (hostRun_fault Sys2Proof.core n h).trans (by rw [run_succ, h]; rfl)
    | refused r => exact (hostRun_refused Sys2Proof.core n h).trans (by rw [run_succ, h]; rfl)

/-- What holds at the start and is kept by every step holds at the end of every run. -/
theorem runsTo_induction {P : State → Prop} (keep : ∀ s t, P s → step s = .next t → P t) {n : Nat} {s t : State}
    (h : RunsTo n s t) (hs : P s) : P t := by
  induction n generalizing s with
  | zero => cases h; exact hs
  | succ n ih =>
    rw [RunsTo, run_succ] at h
    cases hst : step s with
    | next u => rw [hst] at h; exact ih h (keep s u hs hst)
    | fault cause => rw [hst] at h; cases h
    | refused r => rw [hst] at h; cases h

end Sys2Proof.Machine
end

