-- ==== Sys2Proof/Laws/Load.lean ====
section
/-! SUPPORT. The header validator's reads of a long enough image are the bytes of the image. -/

namespace Sys2Proof.Machine

/-- The checksum loop in closed form (20_memory.md R46). -/
theorem foldl_checksumRound (bytes : List Byte) (acc : Byte) :
    bytes.foldl checksumRound acc =
      acc - BitVec.ofNat 8 (bytes.map BitVec.toNat).sum - BitVec.ofNat 8 bytes.length := by
  induction bytes generalizing acc with
  | nil => simp
  | cons v rest ih =>
    rw [List.foldl_cons, ih, checksumRound, List.map_cons, List.sum_cons, List.length_cons, BitVec.ofNat_add,
      BitVec.ofNat_add, BitVec.ofNat_toNat, BitVec.setWidth_eq]
    generalize BitVec.ofNat 8 (rest.map BitVec.toNat).sum = x
    generalize BitVec.ofNat 8 rest.length = y
    simp only [BitVec.sub_eq_add_neg, BitVec.neg_add]
    ac_rfl

/-- A range of addresses of an image, as a part of the list. -/
theorem map_getD_range (image : List Byte) (start n : Nat) (h : start + n ≤ image.length) :
    (List.range n).map (fun i => image.getD (start + i) 0#8) = (image.drop start).take n := by
  apply List.ext_getElem
  · simp; omega
  · intro i h₁ h₂
    simp only [List.length_map, List.length_range] at h₁
    simp [List.getElem?_eq_getElem (show start + i < image.length by omega)]

variable {image : List Byte} (h : 0x150 ≤ image.length)
include h

theorem headerByte_logo (i : Fin 48) :
    (Memory.ofImage image).headerByte (logoAddr + i.val) = image.getD (0x104 + i.val) 0#8 :=
  Memory.headerByte_ofImage image _ (by have := i.isLt; simp only [logoAddr]; omega) h

theorem headerByte_checksum : (Memory.ofImage image).headerByte headerChecksumAddr = image.getD 0x14D 0#8 :=
  Memory.headerByte_ofImage image _ (by decide) h

theorem headerByte_titleAddr {i : Nat} (hi : i < 25) :
    (Memory.ofImage image).headerByte (titleAddr + i) = image.getD (0x134 + i) 0#8 :=
  Memory.headerByte_ofImage image _ (by simp only [titleAddr]; omega) h

/-- The checksum of an image, by the sum of its 25 bytes (20_memory.md R46). -/
theorem headerChecksum_ofImage :
    headerChecksum (Memory.ofImage image) =
      0#8 - BitVec.ofNat 8 (((image.drop 0x134).take 25).map BitVec.toNat).sum - 25#8 := by
  have reads : headerChecksum (Memory.ofImage image) =
      ((List.range 25).map fun i => image.getD (0x134 + i) 0#8).foldl checksumRound 0#8 := by
    rw [List.foldl_map, headerChecksum]
    exact List.foldl_ext _ _ _ fun acc i hi => by rw [headerByte_titleAddr h (List.mem_range.1 hi)]
  have len : ((image.drop 0x134).take 25).length = 25 := by rw [List.length_take, List.length_drop]; omega
  rw [reads, map_getD_range image 0x134 25 (by omega), foldl_checksumRound, len]

/-- The title of an image (20_memory.md R47). -/
theorem title_ofImage : title (Memory.ofImage image) = ((image.drop 0x134).take 16).takeWhile (· != 0#8) := by
  rw [title, ← map_getD_range image 0x134 16 (by omega)]
  congr 1
  exact List.map_congr_left fun i hi => headerByte_titleAddr h (by have := List.mem_range.1 hi; omega)

/-- No logo position mismatches: all 48 bytes are equal (20_memory.md R45). -/
theorem logoMismatchAt_eq_none (p : Params) :
    logoMismatchAt p (Memory.ofImage image) = none ↔ ∀ i : Fin 48, image.getD (0x104 + i.val) 0#8 = p.logo i := by
  simp only [logoMismatchAt, List.find?_eq_none, headerByte_logo h]
  simp

/-- The position reported is the lowest one that mismatches. -/
theorem logoMismatchAt_eq_some (p : Params) (i : Fin 48) (hi : image.getD (0x104 + i.val) 0#8 ≠ p.logo i)
    (below : ∀ j : Fin 48, j < i → image.getD (0x104 + j.val) 0#8 = p.logo j) :
    logoMismatchAt p (Memory.ofImage image) = some i := by
  simp only [logoMismatchAt, headerByte_logo h]
  rw [List.find?_eq_some_iff_getElem]
  refine ⟨by simpa using hi, i.val, by simp, by simp, fun j hj => ?_⟩
  have hj' : j < 48 := by omega
  simpa using below ⟨j, hj'⟩ (by simpa [Fin.lt_def] using hj)

/-- What `load` does after the size code of a long enough image is known. -/
theorem load_of_romSize (p : Params) {expected : Nat} (size : romSize p (image.getD 0x148 0#8) = .ok expected) :
    load p image =
      if expected < image.length then .error (.imageTooLong image.length expected)
      else if image.getD 0x147 0#8 ≠ 0x00#8 then .error (.unsupportedCartridgeType (image.getD 0x147 0#8))
      else
        match logoMismatchAt p (Memory.ofImage image) with
        | some i => .error (.logoMismatch (BitVec.ofNat 16 (logoAddr + i.val)))
        | none =>
          if headerChecksum (Memory.ofImage image) ≠ (Memory.ofImage image).headerByte headerChecksumAddr then
            .error (.headerChecksumMismatch (headerChecksum (Memory.ofImage image))
              ((Memory.ofImage image).headerByte headerChecksumAddr))
          else .ok (Memory.ofImage image, title (Memory.ofImage image)) := by
  have read : romSize p (imageByte image romSizeAddr) = .ok expected := size
  rw [load, if_neg (by simp only [minImageLen]; omega), read]
  rfl

/-- What `load` does of an unknown size code. -/
theorem load_of_romSize_error (p : Params) {e : LoadFault} (size : romSize p (image.getD 0x148 0#8) = .error e) :
    load p image = .error e := by
  have read : romSize p (imageByte image romSizeAddr) = .error e := size
  rw [load, if_neg (by simp only [minImageLen]; omega), read]

end Sys2Proof.Machine
end

