-- ==== Sys2Proof/Laws/PerInstr.lean ====
section
/-! SUPPORT. Facts about every instruction as syntax, one lemma per constructor. -/

namespace Sys2Proof.Laws

namespace EncodedLength

/-- The encoding has the length of the descriptor, 1 to 3 bytes, and starts with the descriptor's opcode
(30_encoding.md R60, R61, R68). -/
def Statement (i : Instr) : Prop :=
  (encode i).length = i.kind.row.length ∧ i.kind.row.length = i.length ∧ 1 ≤ i.length ∧ i.length ≤ 3 ∧
    (encode i).head? = some i.kind.row.opcode

theorem nop : Statement .nop := ⟨rfl, rfl, Nat.le_refl 1, by simp [Instr.length, Instr.kind, OpKind.operandBytes], rfl⟩
theorem decB : Statement .decB := ⟨rfl, rfl, Nat.le_refl 1, by simp [Instr.length, Instr.kind, OpKind.operandBytes], rfl⟩
theorem jrNZr8 (r8 : Byte) : Statement (.jrNZr8 r8) :=
  ⟨rfl, rfl, Nat.le_add_right 1 1, by simp [Instr.length, Instr.kind, OpKind.operandBytes], rfl⟩
theorem ldHLd16 (d16 : Word) : Statement (.ldHLd16 d16) := ⟨rfl, rfl, Nat.le_add_right 1 2, Nat.le_refl 3, rfl⟩
theorem xorA : Statement .xorA := ⟨rfl, rfl, Nat.le_refl 1, by simp [Instr.length, Instr.kind, OpKind.operandBytes], rfl⟩
theorem jpA16 (a16 : Word) : Statement (.jpA16 a16) := ⟨rfl, rfl, Nat.le_add_right 1 2, Nat.le_refl 3, rfl⟩

end EncodedLength

end Sys2Proof.Laws
end

