-- ==== Sys2Proof/Tests/Slice0.lean ====
section
/-! SUPPORT. The model's own tests. Expected values are the spec's: 95_test_vectors.md (S, V and P entries), the worked
examples of the instruction rules, and hand calculation from the rules. The witnesses show that the hypotheses of the
package's statements can be met together. -/

namespace Sys2Proof.Tests

open Sys2Proof.Machine

/-! ## Helpers -/

/-- A machine at `pc` whose image is `bytes`, with the power-up registers. -/
def machineAt (pc : Word) (bytes : List Byte) : State := (State.powerUp (Memory.ofImage bytes)).setPc pc

/-- The registers after a step that succeeds. -/
def nextRegs : Host.Outcome State Fault Refusal → Option RegisterFile
  | .next t => some t.regs
  | .fault _ => none
  | .refused _ => none

/-- The cause of a step that faults. -/
def causeOf : Host.Outcome State Fault Refusal → Option Fault
  | .next _ => none
  | .fault cause => some cause
  | .refused _ => none

/-- The header of `Base(Len)` of 95_test_vectors.md with the code bytes at 0x0100 to 0x0103. -/
def header (code : List Byte) : List Byte :=
  List.replicate 0x100 0x00#8 ++ code ++ defaultLogo ++ List.replicate 25 0x00#8 ++ [0xE7#8, 0x00#8, 0x00#8]

/-- `Base(150)`. -/
def base150 : List Byte := header [0x00#8, 0x00#8, 0x00#8, 0x00#8]

/-- A `ROM_SIZE_BASE` of 0x150 bytes, so that the size limit can be met by a small image. -/
def smallRom : Params := { Params.default with romSizeBase := 0x150 }

def loadError (p : Params) (image : List Byte) : Option LoadFault :=
  match load p image with
  | .error e => some e
  | .ok _ => none

def loadTitle (p : Params) (image : List Byte) : Option (List Byte) :=
  match load p image with
  | .error _ => none
  | .ok (_, t) => some t

/-! ## Well-formedness -/

theorem test_row_of_wrong_length_refused : Row.wellFormed ⟨0x20#8, "JR NZ,r8", 1, .jrNZ⟩ = false := by decide
theorem test_duplicate_key_refused :
    keysDistinct [⟨0x00#8, "NOP", 1, .nop⟩, ⟨0x00#8, "XOR A", 1, .xorA⟩] = false := by decide
theorem test_table_with_wrong_length_refused :
    tableWellFormed [⟨0x00#8, "NOP", 1, .nop⟩, ⟨0x21#8, "LD HL,d16", 2, .ldHL⟩] = false := by decide
theorem test_table_with_duplicate_key_refused :
    tableWellFormed [⟨0x05#8, "DEC B", 1, .decB⟩, ⟨0x05#8, "DEC B", 1, .decB⟩] = false := by decide
theorem test_displacement_128_refused : Written.wellFormed 0 (.jrNZ 128) = false := by decide
theorem test_displacement_minus_129_refused : Written.wellFormed 0 (.jrNZ (-129)) = false := by decide
theorem test_label_too_far_refused : Written.wellFormed 0x0100 (.jrNZLabel 0x0182) = false := by decide
theorem test_load_operand_of_17_bits_refused : Written.wellFormed 0 (.ldHL 0x10000) = false := by decide
theorem test_jump_operand_of_17_bits_refused : Written.wellFormed 0 (.jp 0x10000) = false := by decide

/-! ## Decoding: words written out bit by bit from 30_encoding.md R61 and R64 -/

theorem test_decode_nop : decode [0b00000000#8] = .ok (.nop, []) := by decide
theorem test_decode_decB : decode [0b00000101#8] = .ok (.decB, []) := by decide
theorem test_decode_jrNZ : decode [0b00100000#8, 0b11111101#8] = .ok (.jrNZr8 0xFD#8, []) := by decide
theorem test_decode_ldHL : decode [0b00100001#8, 0b00110100#8, 0b00010010#8] = .ok (.ldHLd16 0x1234#16, []) := by decide
theorem test_decode_xorA : decode [0b10101111#8] = .ok (.xorA, []) := by decide
theorem test_decode_jp : decode [0b11000011#8, 0b01010000#8, 0b00000001#8] = .ok (.jpA16 0x0150#16, []) := by decide
theorem test_decode_halt_rejected : decode [0x76#8] = .error (.unimplementedOpcode 0x76#8) := by decide
theorem test_decode_prefix_rejected : decode [0xCB#8, 0x00#8] = .error (.unimplementedOpcode 0xCB#8) := by decide
theorem test_decode_truncated : decode [0xC3#8, 0x34#8] = .error .truncated := by decide
theorem test_table_word_jp : decodeTableWord 8 0xC3 = some (.jpA16 0x0000#16) := by decide
theorem test_table_word_ldHL : decodeTableWord 24 0x123421 = some (.ldHLd16 0x1234#16) := by decide
theorem test_step_of_placed_word :
    (nextRegs (step (State.reset.withFetchWord 24 0x1234C3))).map RegisterFile.pc = some 0x1234#16 := by decide

/-! ## The assembler (30_encoding.md R69) -/

theorem test_assemble_jrNZ_backward : (assemble 0x0155 (.jrNZ (-3))).map encode = some [0x20#8, 0xFD#8] := by decide
theorem test_assemble_label : (assemble 0x0101 (.jrNZLabel 0x0150)).map encode = some [0x20#8, 0x4D#8] := by decide

/-! ## Steps (95_test_vectors.md) -/

/-- S2, VN1. -/
theorem test_nop_advances_pc :
    nextRegs (step (machineAt 0#16 [0x00#8])) = some { RegisterFile.powerUp with pc := 0x0001#16 } := by decide

/-- S3. -/
theorem test_jp_operand_is_little_endian :
    nextRegs (step (machineAt 0#16 [0xC3#8, 0x34#8, 0x12#8])) = some { RegisterFile.powerUp with pc := 0x1234#16 } := by
  decide

/-- S5, VD1: h gets the high byte, at the higher address. -/
theorem test_ldHL_writes_h_and_l :
    nextRegs (step (machineAt 0#16 [0x21#8, 0x34#8, 0x12#8])) =
      some { RegisterFile.powerUp with h := 0x12#8, l := 0x34#8, pc := 0x0003#16 } := by decide

/-- VD4: a zero result does not set Z. -/
theorem test_ldHL_leaves_the_flags :
    (nextRegs (exec (.ldHLd16 0x0000#16) ((machineAt 0#16 []).setF 0x70#8))).map RegisterFile.f = some 0x70#8 := by decide

/-- S6, VA1. -/
theorem test_decB_wraps_and_borrows :
    nextRegs (step (machineAt 0#16 [0x05#8])) =
      some { RegisterFile.powerUp with b := 0xFF#8, f := 0x60#8, pc := 0x0001#16 } := by decide

/-- VA2: Z set, C kept. -/
theorem test_decB_to_zero_keeps_carry :
    (nextRegs (exec .decB (((machineAt 0#16 []).setB 0x01#8).setF 0x10#8))).map (fun r => (r.b, r.f)) =
      some (0x00#8, 0xD0#8) := by decide

/-- VA10. -/
theorem test_xorA_clears_all_but_zero :
    (nextRegs (exec .xorA (((machineAt 0#16 []).setA 0x5A#8).setF 0x70#8))).map (fun r => (r.a, r.f)) =
      some (0x00#8, 0x80#8) := by decide

/-- VJ5, VJ11 by their displacements: taken backward from `pc` after the operand. -/
theorem test_jrNZ_taken_backward :
    (nextRegs (exec (.jrNZr8 0xFD#8) ((machineAt 0x0157#16 []).setF 0x00#8))).map RegisterFile.pc = some 0x0154#16 := by
  decide

/-- S7, VJ6: not taken with Z set. -/
theorem test_jrNZ_not_taken :
    (nextRegs (step (machineAt 0#16 [0x20#8, 0xFD#8]))).map RegisterFile.pc = some 0x0002#16 := by decide

/-- VJ12 (wrap). -/
theorem test_jrNZ_wraps_below_zero :
    (nextRegs (exec (.jrNZr8 0x80#8) ((machineAt 0x0002#16 []).setF 0x00#8))).map RegisterFile.pc = some 0xFF82#16 := by
  decide

/-- VE1: 0x76 is unimplemented. -/
theorem test_unimplemented_opcode :
    causeOf (step (machineAt 0#16 [0x76#8])) = some (.unimplementedOpcode 0x76#8 0x0000#16) := by decide

/-- VE4. -/
theorem test_fetch_past_the_image :
    causeOf (step (machineAt 0x0001#16 [0x00#8])) = some (.readOutOfRange 0x0001#16) := by decide

/-- VE7: the displacement is fetched with Z set. -/
theorem test_jrNZ_fetches_its_operand_when_not_taken :
    causeOf (step (machineAt 0#16 [0x20#8])) = some (.readOutOfRange 0x0001#16) := by decide

/-- VE9, VE10 (wrap): an image of 65536 bytes whose last byte is 0xC3. -/
theorem test_operand_addresses_wrap :
    (nextRegs (step ((State.powerUp ⟨.romOnly, 0x10000, [(0, 0x50#8), (1, 0x01#8), (0xFFFF, 0xC3#8)]⟩).setPc 0xFFFF#16))).map
      RegisterFile.pc = some 0x0150#16 := by decide

/-! ## Load (95_test_vectors.md) -/

/-- VL1. -/
theorem test_load_too_short : loadError Params.default (base150.take 0x14F) = some (.imageTooShort 0x14F) := by decide +kernel

/-- VL2. -/
theorem test_load_base : loadTitle Params.default base150 = some [] := by decide +kernel

/-- VL3: the size check comes before the checksum check. -/
theorem test_load_unknown_size_code :
    loadError Params.default (base150.set 0x148 0x09#8) = some (.unknownRomSizeCode 0x09#8) := by decide +kernel

/-- VL4. -/
theorem test_load_unsupported_type :
    loadError Params.default ((base150.set 0x147 0x01#8).set 0x14D 0xE6#8) = some (.unsupportedCartridgeType 0x01#8) := by
  decide +kernel

/-- VL15: the logo comes before the checksum. -/
theorem test_load_logo_before_checksum :
    loadError Params.default ((base150.set 0x104 0xCF#8).set 0x14D 0x00#8) = some (.logoMismatch 0x0104#16) := by decide +kernel

/-- VL6. -/
theorem test_load_checksum :
    loadError Params.default (base150.set 0x14D 0xE6#8) = some (.headerChecksumMismatch 0xE7#8 0xE6#8) := by decide +kernel

/-- VL13: the title stops at the first zero byte, the bytes after it still count. -/
theorem test_load_title :
    loadTitle Params.default
      (((((base150.set 0x134 0x41#8).set 0x135 0x42#8).set 0x137 0x43#8).set 0x138 0x44#8).set 0x14D 0xDD#8) =
      some [0x41#8, 0x42#8] := by decide +kernel

/-- VL8, with a base of 0x150: one byte more than declared. -/
theorem test_load_too_long : loadError smallRom (base150 ++ [0x00#8]) = some (.imageTooLong 0x151 0x150) := by decide +kernel

/-- R41: the sizes of code 0x08 and of the odd codes. -/
theorem test_rom_size_of_code_8 : romSize Params.default 0x08#8 = .ok 8388608 := by decide

/-! ## Memory primitives (95_test_vectors.md) -/

/-- VM6: low byte at the lower address. -/
theorem test_word_read_is_little_endian : memRead16 (machineAt 0#16 [0x3E#8, 0x00#8]) 0x0000#16 = .ok 0x003E#16 := by decide

/-- VM5. -/
theorem test_word_read_across_the_end :
    memRead16 (machineAt 0#16 [0x00#8]) 0x0000#16 = .error (.readOutOfRange 0x0001#16) := by decide

/-- VM4. -/
theorem test_write_faults : memWrite (machineAt 0#16 [0x00#8]) 0x0000#16 0x12#8 = .error (.writeToReadOnly 0x0000#16 0x12#8) := by
  decide

/-! ## Witnesses: states and operands that meet the hypotheses of the statements -/

theorem witness_valid_image : ValidImage Params.default base150 where
  longEnough := by decide +kernel
  sizeKnown := ⟨32768, by decide +kernel, by decide +kernel⟩
  romOnlyType := by decide +kernel
  logoEqual := by decide +kernel
  checksumEqual := by decide +kernel

theorem witness_valid_image_of_declared_length : ValidImage smallRom base150 where
  longEnough := by decide +kernel
  sizeKnown := ⟨0x150, by decide +kernel, by decide +kernel⟩
  romOnlyType := by decide +kernel
  logoEqual := by decide +kernel
  checksumEqual := by decide +kernel

/-- ReadGivesTheByteOfTheImage, both clauses at the end of the image. -/
theorem witness_read :
    (machineAt 0#16 [0x01#8]).mem = Memory.ofImage [0x01#8] ∧ [0x01#8][(0x0000#16).toNat]? = some 0x01#8 ∧
      [0x01#8][(0x0001#16).toNat]? = none := ⟨rfl, rfl, rfl⟩

/-- WordAccessesAreTwoByteAccesses, its three clauses on reads. -/
theorem witness_word_access :
    (memRead (machineAt 0#16 [0x01#8, 0x02#8]) 0#16 = .ok 0x01#8 ∧
      memRead (machineAt 0#16 [0x01#8, 0x02#8]) (0#16 + 1#16) = .ok 0x02#8) ∧
    memRead (machineAt 0#16 []) 0#16 = .error (.readOutOfRange 0#16) ∧
    (memRead (machineAt 0#16 [0x01#8]) 0#16 = .ok 0x01#8 ∧
      memRead (machineAt 0#16 [0x01#8]) (0#16 + 1#16) = .error (.readOutOfRange 1#16)) := by decide

/-- EqualImagesAreEqualData. -/
theorem witness_equal_images :
    (Memory.ofImage [0x00#8, 0x07#8]).wf = true ∧ (⟨.romOnly, 2, [(1, 0x07#8)]⟩ : Memory).wf = true ∧
      ∀ k, k < 2 → (Memory.ofImage [0x00#8, 0x07#8]).byteAt k = (⟨.romOnly, 2, [(1, 0x07#8)]⟩ : Memory).byteAt k := by
  decide

/-- ShortImageIsTooShortWhateverItHolds, at its bound. -/
theorem witness_short_image : (base150.take 0x14F).length < 0x150 := by decide +kernel

/-- RomSizeOfEveryCode, at the bounds of its clauses. -/
theorem witness_rom_size_codes :
    (0x00#8).toNat ≤ 8 ∧ (0x08#8).toNat ≤ 8 ∧ (8 < (0x09#8).toNat ∧ (0x09#8 : Byte) ≠ 0x52#8 ∧ (0x09#8 : Byte) ≠ 0x53#8 ∧
      (0x09#8 : Byte) ≠ 0x54#8) ∧ 8 < (0x55#8).toNat := by decide

/-- DeclaredSizeBoundsTheLengthFromAboveOnly, one byte above the declared size; at it, `witness_valid_image_of_declared_length`;
below it, `witness_valid_image`. -/
theorem witness_too_long :
    0x150 ≤ (base150 ++ [0x00#8]).length ∧ romSize smallRom ((base150 ++ [0x00#8]).getD 0x148 0#8) = .ok 0x150 ∧
      0x150 < (base150 ++ [0x00#8]).length := by decide +kernel

/-- OnlyCartridgeTypeZeroLoads, its first clause; the second, `witness_valid_image` with `test_load_base`. -/
theorem witness_other_type :
    0x150 ≤ (base150.set 0x147 0x01#8).length ∧ romSize Params.default ((base150.set 0x147 0x01#8).getD 0x148 0#8) = .ok 32768 ∧
      (base150.set 0x147 0x01#8).length ≤ 32768 ∧ (base150.set 0x147 0x01#8).getD 0x147 0#8 ≠ 0#8 := by decide +kernel

/-- FlippedLogoByteIsRefused and FlippedChecksumByteIsRefused, at the ends of the logo (with `witness_valid_image`). -/
theorem witness_flipped_bytes :
    0xCF#8 ≠ Params.default.logo 0 ∧ 0x00#8 ≠ Params.default.logo 47 ∧ 0xE6#8 ≠ base150.getD 0x14D 0#8 := by decide +kernel

/-- LoadReportsTheFirstFailedCheck, its clauses for the size code, the lowest bad logo byte (the last one) and the checksum;
the others, `witness_short_image`, `witness_too_long`, `witness_other_type` and `witness_valid_image`. -/
theorem witness_first_failed_check :
    romSize Params.default ((base150.set 0x148 0x09#8).getD 0x148 0#8) = .error (.unknownRomSizeCode 0x09#8) ∧
      (romSize Params.default ((base150.set 0x133 0x00#8).getD 0x148 0#8) = .ok 32768 ∧
        (base150.set 0x133 0x00#8).length ≤ 32768 ∧ (base150.set 0x133 0x00#8).getD 0x147 0#8 = 0#8 ∧
        (base150.set 0x133 0x00#8).getD (0x104 + (47 : Fin 48).val) 0#8 ≠ Params.default.logo 47 ∧
        ∀ j : Fin 48, j < 47 → (base150.set 0x133 0x00#8).getD (0x104 + j.val) 0#8 = Params.default.logo j) ∧
      (romSize Params.default ((base150.set 0x14D 0x00#8).getD 0x148 0#8) = .ok 32768 ∧
        (base150.set 0x14D 0x00#8).length ≤ 32768 ∧ (base150.set 0x14D 0x00#8).getD 0x147 0#8 = 0#8 ∧
        (∀ i : Fin 48, (base150.set 0x14D 0x00#8).getD (0x104 + i.val) 0#8 = Params.default.logo i) ∧
        (base150.set 0x14D 0x00#8).getD 0x14D 0#8 ≠ 0xE7#8) := by decide +kernel

/-- UnlistedHeaderBytesAreNotChecked, at the bounds of its clauses (with `witness_valid_image`). -/
theorem witness_unlisted_bytes :
    (0x144 ≤ 0x144 ∧ 0x146 ≤ 0x146) ∧ (0x149 ≤ 0x149 ∧ 0x14C ≤ 0x14C) ∧ 0x103 < 0x104 ∧ 0x14D < 0x14E := by decide

/-- ErrorsComeFromTheirOperations. -/
theorem witness_errors :
    load Params.default [] = .error (.imageTooShort 0) ∧ step State.reset = .fault (.readOutOfRange 0x0100#16) := ⟨rfl, rfl⟩

/-- TitleIsTheLongestPrefixWithoutZero, LoadAcceptsExactlyTheValidImages, InvariantHoldsAtPowerUp. -/
theorem witness_loads : ∃ m t, load Params.default base150 = .ok (m, t) ∧ boot Params.default base150 = .ok (State.powerUp m, t) :=
  ⟨Memory.ofImage base150, [], by decide +kernel, by decide +kernel⟩

/-- TableRejectsDuplicateKeys. -/
theorem witness_duplicate_key :
    (⟨0x05#8, "DEC B", 1, .decB⟩ : Row).opcode = (⟨0x05#8, "NOP", 1, .nop⟩ : Row).opcode := rfl

/-- DecodedBytesAreTheEncoding and DecoderRejectsExactly. -/
theorem witness_decode :
    decode [0x20#8, 0x7F#8, 0x00#8] = .ok (.jrNZr8 0x7F#8, [0x00#8]) ∧
      decode [0xFF#8] = .error (.unimplementedOpcode 0xFF#8) ∧ decode [0x20#8] = .error .truncated := by decide

/-- AssemblerKeepsTheRanges, at the bounds of each range. -/
theorem witness_assembler :
    assemble 0 (.jrNZ (-128)) = some (.jrNZr8 0x80#8) ∧ assemble 0 (.jrNZ 127) = some (.jrNZr8 0x7F#8) ∧
      assemble 0 (.jrNZ 128) = none ∧ assemble 0 (.ldHL 0xFFFF) = some (.ldHLd16 0xFFFF#16) ∧
      assemble 0 (.jp 0x10000) = none ∧ assemble 0x0100 (.jrNZLabel 0x0082) = some (.jrNZr8 0x80#8) ∧
      assemble 0x0100 (.jrNZLabel 0x0081) = none ∧ assemble 0x0100 (.jrNZLabel 0x0181) = some (.jrNZr8 0x7F#8) ∧
      assemble 0x0100 (.jrNZLabel 0x0182) = none := by decide

/-- A machine with one instruction of three bytes at `pc`: StepRunsTheDecodedInstruction, PcAfterAStep,
StepSucceedsExactlyOnAnInstruction, StepAgreesWithThePseudocode, RunEndsOnlyByTwoFaults. -/
theorem witness_instruction_at_pc :
    (machineAt 0#16 [0x21#8, 0x34#8, 0x12#8]).status = .running ∧
      BytesAt (machineAt 0#16 [0x21#8, 0x34#8, 0x12#8]) 0#16 (encode (.ldHLd16 0x1234#16)) ∧
      decode [0x21#8, 0x34#8, 0x12#8] = .ok (.ldHLd16 0x1234#16, []) :=
  ⟨rfl, ⟨by decide, by decide, by decide, trivial⟩, by decide⟩

/-- OtherOpcodesAreUnimplemented. -/
theorem witness_other_opcode :
    0x76#8 ∉ [0x00#8, 0x05#8, 0x20#8, 0x21#8, 0xAF#8, 0xC3#8] ∧ (machineAt 0#16 [0x76#8]).status = .running ∧
      memRead (machineAt 0#16 [0x76#8]) (machineAt 0#16 [0x76#8]).regs.pc = .ok 0x76#8 := by decide

/-- FetchOutOfRangeFaultsInOrder, its three clauses. -/
theorem witness_fetch_out_of_range :
    memRead (machineAt 0#16 []) 0#16 = .error (.readOutOfRange 0#16) ∧
      (memRead (machineAt 0#16 [0x20#8]) 0#16 = .ok 0x20#8 ∧
        memRead (machineAt 0#16 [0x20#8]) (0#16 + 1#16) = .error (.readOutOfRange 1#16)) ∧
      (memRead (machineAt 0#16 [0xC3#8, 0x00#8]) 0#16 = .ok 0xC3#8 ∧
        memRead (machineAt 0#16 [0xC3#8, 0x00#8]) (0#16 + 1#16) = .ok 0x00#8 ∧
        memRead (machineAt 0#16 [0xC3#8, 0x00#8]) (0#16 + 2#16) = .error (.readOutOfRange 2#16)) := by decide

/-- FaultIsFinal. -/
theorem witness_fault : step (machineAt 0#16 [0x76#8]) = .fault (.unimplementedOpcode 0x76#8 0#16) := rfl

/-- HostGetsTheMatchedDescriptor, on a success and on a fault. -/
theorem witness_host_step :
    (∃ t, hostStep Params.default (machineAt 0#16 [0x05#8]) = .next (⟨⟨0x05#8, "DEC B", 1, .decB⟩, 4⟩, t) ∧
      step (machineAt 0#16 [0x05#8]) = .next t) ∧
      hostStep Params.default (machineAt 0#16 [0x76#8]) = .fault (.unimplementedOpcode 0x76#8 0#16) :=
  ⟨⟨_, rfl, rfl⟩, rfl⟩

/-- NopDoesNothing, its second clause. -/
theorem witness_nop_at_pc :
    (machineAt 0#16 [0x00#8]).status = .running ∧ memRead (machineAt 0#16 [0x00#8]) 0#16 = .ok 0x00#8 := by decide

/-- JrNZAddsItsDisplacementWhenZIsClear, both clauses. -/
theorem witness_zero_flag :
    (machineAt 0#16 []).regs.f.getLsbD 7 = true ∧ ((machineAt 0#16 []).setF 0x70#8).regs.f.getLsbD 7 = false := by decide

/-- XorAClearsAAndSetsZAlone and DecBDecrementsAndSetsItsFlags: the low nibble is zero. -/
theorem witness_nibble_clear : FlagNibbleClear (machineAt 0#16 []) := by
  show (machineAt 0#16 []).regs.f &&& 0x0F#8 = 0#8
  decide

/-- EveryStepKeepsTheInvariant and NoStepWritesTheUntouchedState. -/
theorem witness_inv_and_step : Inv (machineAt 0#16 [0x05#8]) ∧ ∃ t, step (machineAt 0#16 [0x05#8]) = .next t :=
  ⟨⟨witness_nibble_clear, rfl⟩, _, rfl⟩

/-- NoStepSetsCarry: a step that ends with C set. -/
theorem witness_carry_kept :
    ∃ t, step ((machineAt 0#16 [0x00#8]).setF 0x10#8) = .next t ∧ t.flag .c = true := ⟨_, rfl, rfl⟩

/-- P5, its first step: the NOP at 0x0100. -/
theorem test_first_step_of_base150 :
    step (State.powerUp (Memory.ofImage base150)) = .next ((State.powerUp (Memory.ofImage base150)).setPc 0x0101#16) := by
  have opcode : memRead (State.powerUp (Memory.ofImage base150)) (State.powerUp (Memory.ofImage base150)).regs.pc = .ok 0x00#8 := by
    decide +kernel
  rw [step_running rfl, fetchInstr_fetched opcode]
  rfl

/-- ReachableStatesOfALoadedMachine: a loaded machine and one step of it. -/
theorem witness_reachable : ∃ s t, boot Params.default base150 = .ok (s, []) ∧ RunsTo 1 s t ∧ t.regs.pc = 0x0101#16 :=
  ⟨State.powerUp (Memory.ofImage base150), (State.powerUp (Memory.ofImage base150)).setPc 0x0101#16, by decide +kernel,
    by rw [RunsTo, run_succ, test_first_step_of_base150]; rfl, rfl⟩

/-- EveryStepKeepsTheBootedMachine: a booted machine and a step of it; for BootGivesABootedMachine, `witness_loads`. -/
theorem witness_booted_with :
    BootedWith base150 (State.powerUp (Memory.ofImage base150)) ∧
      ∃ t, step (State.powerUp (Memory.ofImage base150)) = .next t :=
  ⟨⟨rfl, rfl, by show RegisterFile.powerUp.f &&& 0x0F#8 = 0#8; decide, by show readFlag .c RegisterFile.powerUp.f = false; decide,
    rfl, rfl, rfl, rfl⟩, _, test_first_step_of_base150⟩

/-- JumpToItselfRunsForever. -/
theorem witness_jump_to_itself :
    (machineAt 0#16 [0xC3#8, 0x00#8, 0x00#8]).status = .running ∧
      BytesAt (machineAt 0#16 [0xC3#8, 0x00#8, 0x00#8]) 0#16 (encode (.jpA16 0#16)) :=
  ⟨rfl, by decide, by decide, by decide, trivial⟩

/-- BytesAbove64KInfluenceNothing: two images that differ above 0x10000, and a step of both. -/
theorem witness_same_below_64K :
    SameBelow64K (State.powerUp ⟨.romOnly, 0x10001, [(0x10000, 0x05#8)]⟩) (State.powerUp ⟨.romOnly, 0x10000, []⟩) ∧
      (∃ s', step (State.powerUp ⟨.romOnly, 0x10001, [(0x10000, 0x05#8)]⟩) = .next s') ∧
      ∃ t', step (State.powerUp ⟨.romOnly, 0x10000, []⟩) = .next t' := by
  refine ⟨⟨rfl, rfl, rfl, ?_, ?_⟩, ⟨_, rfl⟩, ⟨_, rfl⟩⟩
  · intro k hk
    simp only [State.powerUp]
    omega
  · intro k hk
    simp only [State.powerUp, Memory.byteAt, cellByte]
    rw [if_neg (by omega)]

/-- PlacedWordIsTheNextInstruction. -/
theorem witness_placed_word : State.reset.mem.wf = true ∧ decodeTableWord 16 0xFD20 = some (.jrNZr8 0xFD#8) := by decide

end Sys2Proof.Tests
end

/-! # The state: registers, flags, memory in canonical form, and what every step keeps of them (10_state.md) -/

namespace Sys2Proof.Machine

/-! ## The flags of an xor and of a decrement -/

/-- Z from the result, the other three flags cleared (43_alu8.md R95). -/
theorem readFlag_xorFlags (x : Flag) (r f : Byte) :
    readFlag x (xorFlags r f) = if x = .z then r == 0#8 else false := by
  cases x <;> simp [xorFlags]

/-- Z from the result, N set, H the borrow, C untouched (43_alu8.md R95). -/
theorem readFlag_decFlags (x : Flag) (p r f : Byte) :
    readFlag x (decFlags p r f) = match x with
      | .z => r == 0#8
      | .n => true
      | .h => decHalfCarry p
      | .c => readFlag .c f := by
  cases x <;> simp [decFlags]

@[simp] theorem xorFlags_lowNibble (r f : Byte) : xorFlags r f &&& 0x0F#8 = f &&& 0x0F#8 := by simp [xorFlags]

@[simp] theorem decFlags_lowNibble (p r f : Byte) : decFlags p r f &&& 0x0F#8 = f &&& 0x0F#8 := by simp [decFlags]

theorem decHalfCarry_eq (p : Byte) : decHalfCarry p = (p.toNat % 16 == 0) := by
  have nibble : (p &&& 0x0F#8).toNat = p.toNat % 16 := by
    rw [BitVec.toNat_and]
    exact Nat.and_two_pow_sub_one_eq_mod p.toNat 4
  rw [Bool.eq_iff_iff, decHalfCarry, beq_iff_eq, beq_iff_eq, ← BitVec.toNat_inj, nibble]
  rfl

theorem aluDec_toNat (p : Byte) : (aluDec p).toNat = (p.toNat + 255) % 256 := by
  rw [aluDec, BitVec.toNat_sub, Nat.add_comm]
  rfl

/-! ## What a step can do -/

/-- Everything a meaning can do: write `pc` (NOP and a jump not taken write it as it was), load hl, or write a register and
its flags by an xor or a decrement. -/
theorem exec_next_cases {i : Instr} {s t : State} (h : exec i s = .next t) :
    (∃ pc, t = s.setPc pc) ∨
    (∃ d16, t = s.setPair .hl d16) ∨
    t = (s.setA (aluXor s.regs.a s.regs.a)).setF (xorFlags (aluXor s.regs.a s.regs.a) s.regs.f) ∨
    t = (s.setB (aluDec s.regs.b)).setF (decFlags s.regs.b (aluDec s.regs.b) s.regs.f) := by
  cases i with
  | nop => cases h; exact .inl ⟨s.regs.pc, rfl⟩
  | jpA16 a16 => cases h; exact .inl ⟨a16, rfl⟩
  | jrNZr8 r8 =>
    cases z : s.flag .z with
    | true => cases (exec_jrNZr8_notTaken r8 z).symm.trans h; exact .inl ⟨s.regs.pc, rfl⟩
    | false => cases (exec_jrNZr8_taken r8 z).symm.trans h; exact .inl ⟨_, rfl⟩
  | ldHLd16 d16 => cases h; exact .inr (.inl ⟨d16, rfl⟩)
  | xorA => cases h; exact .inr (.inr (.inl rfl))
  | decB => cases h; exact .inr (.inr (.inr rfl))

/-- No meaning writes c, d, e, sp, the memory or the latch (40_engine_step.md R82). -/
theorem exec_sameUntouched {i : Instr} {s t : State} (h : exec i s = .next t) : SameUntouched s t := by
  obtain ⟨pc, rfl⟩ | ⟨d16, rfl⟩ | rfl | rfl := exec_next_cases h <;> exact ⟨rfl, rfl, rfl, rfl, rfl, rfl⟩

/-- No meaning writes the low nibble of the flag byte (10_state.md R15). -/
theorem exec_lowNibble {i : Instr} {s t : State} (h : exec i s = .next t) :
    t.regs.f &&& 0x0F#8 = s.regs.f &&& 0x0F#8 := by
  obtain ⟨pc, rfl⟩ | ⟨d16, rfl⟩ | rfl | rfl := exec_next_cases h
  · rfl
  · rfl
  · exact xorFlags_lowNibble ..
  · exact decFlags_lowNibble ..

/-- XOR A clears C and no other meaning writes it (43_alu8.md R96). -/
theorem exec_carryClear {i : Instr} {s t : State} (h : exec i s = .next t) (clear : s.flag .c = false) :
    t.flag .c = false := by
  obtain ⟨pc, rfl⟩ | ⟨d16, rfl⟩ | rfl | rfl := exec_next_cases h
  · exact clear
  · exact clear
  · exact readFlag_xorFlags ..
  · exact (readFlag_decFlags ..).trans clear

/-- A step is one meaning, applied after a write of `pc` only. -/
theorem step_next_exec {s t : State} (h : step s = .next t) : ∃ i pc, exec i (s.setPc pc) = .next t := by
  obtain ⟨-, i, -, -, -, -, meaning⟩ := step_next h
  exact ⟨i, _, meaning⟩

/-- No step writes c, d, e, sp, the memory or the latch. -/
theorem step_sameUntouched {s t : State} (h : step s = .next t) : SameUntouched s t := by
  obtain ⟨i, pc, meaning⟩ := step_next_exec h
  have frame : SameUntouched (s.setPc pc) t := exec_sameUntouched meaning
  exact frame

/-- Every step keeps the low nibble of the flag byte zero (10_state.md R15). -/
theorem step_flagNibbleClear {s t : State} (h : step s = .next t) (clear : FlagNibbleClear s) : FlagNibbleClear t := by
  obtain ⟨i, pc, meaning⟩ := step_next_exec h
  exact (exec_lowNibble meaning).trans clear

/-- Every step keeps a clear C clear (43_alu8.md R96, "nothing sets it"). -/
theorem step_carryClear {s t : State} (h : step s = .next t) (clear : s.flag .c = false) : t.flag .c = false := by
  obtain ⟨i, pc, meaning⟩ := step_next_exec h
  exact exec_carryClear meaning clear

/-- Settles O45: a step keeps the low nibble of f and the memory, so it keeps both parts of the invariant. -/
theorem everyStepKeepsTheInvariant : Obligations.EveryStepKeepsTheInvariant := by
  intro s t ⟨nibble, wf⟩ h
  obtain ⟨mem, -⟩ := step_next_mem h
  exact ⟨step_flagNibbleClear h nibble, mem ▸ wf⟩

/-- Settles O52: the frame of a step, with the two facts about the flag byte that it leaves out. -/
theorem everyStepKeepsTheBootedMachine : Obligations.EveryStepKeepsTheBootedMachine := by
  intro image s t booted h
  obtain ⟨c, d, e, sp, mem, status⟩ := step_sameUntouched h
  exact {
    mem := mem.trans booted.mem
    running := status.trans booted.running
    nibbleClear := step_flagNibbleClear h booted.nibbleClear
    carryClear := step_carryClear h booted.carryClear
    c := c.trans booted.c
    d := d.trans booted.d
    e := e.trans booted.e
    sp := sp.trans booted.sp }

/-- Settles O46: the frame of a step; equal memories read alike. -/
theorem noStepWritesTheUntouchedState : Obligations.NoStepWritesTheUntouchedState := by
  intro s t h
  obtain ⟨mem, -⟩ := step_next_mem h
  exact ⟨step_sameUntouched h, memRead_congr mem⟩

/-! ## Registers and flags -/

/-- A pair that was written reads back (10_state.md R13). -/
@[simp] theorem readPair_writePair (r : RegisterFile) (p : Pair) (v : Word) : readPair (writePair r p v) p = v := by
  cases p <;> exact joinWord_hiByte_loByte v

/-- Settles O3: `joinWord` puts the first-named register high, and a write splits the word by `hiByte` and `loByte`. -/
theorem pairsAreViewsOfTheirRegisters : Obligations.PairsAreViewsOfTheirRegisters := by
  intro r v
  refine ⟨⟨joinWord_toNat .., joinWord_toNat .., joinWord_toNat ..⟩, ?_, fun p => readPair_writePair r p v⟩
  exact ⟨hiByte v, loByte v, hiByte_toNat v, loByte_toNat v, rfl, rfl, rfl⟩

/-- Settles O4: every bit after a write of one flag; above bit 7 the byte has none. -/
theorem writingOneFlagLeavesTheOtherBits : Obligations.WritingOneFlagLeavesTheOtherBits := by
  intro f
  refine ⟨⟨rfl, rfl, rfl, rfl⟩, fun x v => ⟨by simp, fun i other => ?_⟩⟩
  by_cases hi : i < 8
  · rw [getLsbD_writeFlag x v f i hi, if_neg other]
  · have above : 8 ≤ i := Nat.le_of_not_lt hi
    rw [BitVec.getLsbD_of_ge _ _ above, BitVec.getLsbD_of_ge _ _ above]

/-- Settles O5: each flag of each operation, and the low nibble that no write of a flag touches. -/
theorem aluFlagsFollowTheTable : Obligations.AluFlagsFollowTheTable := by
  intro p q f
  refine ⟨⟨rfl, ?_, ?_, ?_, ?_, xorFlags_lowNibble ..⟩, ⟨aluDec_toNat p, ?_, ?_, ?_, ?_, decFlags_lowNibble ..⟩⟩
  · exact readFlag_xorFlags .z ..
  · exact readFlag_xorFlags .n ..
  · exact readFlag_xorFlags .h ..
  · exact readFlag_xorFlags .c ..
  · exact readFlag_decFlags .z ..
  · exact readFlag_decFlags .n ..
  · exact (readFlag_decFlags .h ..).trans (decHalfCarry_eq p)
  · exact readFlag_decFlags .c ..

/-! ## The canonical form of a memory -/

/-- The canonical form of a cell and the cells after it. -/
theorem cellsWf_cons (lo len a : Nat) (v : Byte) (rest : List Host.Cell) :
    cellsWf lo len ((a, v) :: rest) = true ↔ lo ≤ a ∧ a < len ∧ v ≠ blankByte ∧ cellsWf (a + 1) len rest = true := by
  simp [cellsWf, and_assoc]

/-- No canonical cell lists an offset at or above the length. -/
theorem cellByte_of_ge {cells : List Host.Cell} {lo len k : Nat} (h : cellsWf lo len cells = true) (hk : len ≤ k) :
    cellByte cells k = blankByte := by
  induction cells generalizing lo with
  | nil => rfl
  | cons c rest ih =>
    obtain ⟨a, v⟩ := c
    obtain ⟨-, below, -, tail⟩ := (cellsWf_cons ..).1 h
    rw [cellByte, if_neg (by omega), ih tail]

/-- The first cell of a canonical list stands at or below the first cell of any canonical list with the same bytes: below its
own first cell a list is blank, and no cell is. -/
theorem firstCell_le {a b len lo lo' len' : Nat} {v w : Byte} {xs ys : List Host.Cell}
    (hx : cellsWf lo len ((a, v) :: xs) = true) (hy : cellsWf lo' len' ((b, w) :: ys) = true)
    (same : ∀ k, cellByte ((a, v) :: xs) k = cellByte ((b, w) :: ys) k) : a ≤ b := by
  obtain ⟨-, below, notBlank, tail⟩ := (cellsWf_cons ..).1 hx
  obtain ⟨-, -, listed, -⟩ := (cellsWf_cons ..).1 hy
  by_contra lt
  have fromA : cellsWf a len ((a, v) :: xs) = true := (cellsWf_cons ..).2 ⟨Nat.le_refl a, below, notBlank, tail⟩
  have blank := cellByte_of_lt _ a len b fromA (Nat.lt_of_not_le lt)
  rw [same b] at blank
  exact listed (by simpa [cellByte] using blank)

/-- Canonical cells are determined by their bytes. -/
theorem cells_eq_of_cellByte_eq {xs ys : List Host.Cell} {lo len lo' len' : Nat} (hx : cellsWf lo len xs = true)
    (hy : cellsWf lo' len' ys = true) (same : ∀ k, cellByte xs k = cellByte ys k) : xs = ys := by
  induction xs generalizing ys lo lo' with
  | nil =>
    cases ys with
    | nil => rfl
    | cons c ys =>
      obtain ⟨b, w⟩ := c
      obtain ⟨-, -, notBlank, -⟩ := (cellsWf_cons ..).1 hy
      exact absurd (by simpa [cellByte] using (same b).symm) notBlank
  | cons c xs ih =>
    obtain ⟨a, v⟩ := c
    obtain ⟨-, -, notBlank, tailX⟩ := (cellsWf_cons ..).1 hx
    cases ys with
    | nil => exact absurd (by simpa [cellByte] using same a) notBlank
    | cons c ys =>
      obtain ⟨b, w⟩ := c
      obtain ⟨-, -, -, tailY⟩ := (cellsWf_cons ..).1 hy
      obtain rfl : a = b :=
        Nat.le_antisymm (firstCell_le hx hy same) (firstCell_le hy hx fun k => (same k).symm)
      obtain rfl : v = w := by simpa [cellByte] using same a
      have sameTail : ∀ k, cellByte xs k = cellByte ys k := by
        intro k
        by_cases hk : a = k
        · subst hk
          rw [cellByte_of_lt _ _ _ a tailX (Nat.lt_succ_self a), cellByte_of_lt _ _ _ a tailY (Nat.lt_succ_self a)]
        · simpa [cellByte, hk] using same k
      rw [ih tailX tailY sameTail]

/-- Settles O9: the bytes below the length are equal by hypothesis, those above are blank in both, and the bytes determine
canonical cells. -/
theorem equalImagesAreEqualData : Obligations.EqualImagesAreEqualData := by
  rintro ⟨variant, len, xs⟩ ⟨_, _, ys⟩ hx hy rfl rfl bytes
  have same : ∀ k, cellByte xs k = cellByte ys k := by
    intro k
    by_cases hk : k < len
    · exact bytes k hk
    · rw [cellByte_of_ge hx (Nat.le_of_not_lt hk), cellByte_of_ge hy (Nat.le_of_not_lt hk)]
  exact congrArg (Memory.mk variant len) (cells_eq_of_cellByte_eq hx hy same)

/-! ## Power-up -/

/-- What `load` does of a short image (20_memory.md R39). -/
theorem load_of_short (p : Params) {image : List Byte} (short : image.length < 0x150) :
    load p image = .error (.imageTooShort image.length) :=
  if_pos short

/-- The memory of every successful load is the image (20_memory.md R38). -/
theorem load_ok_mem {p : Params} {image : List Byte} {m : Memory} {name : List Byte}
    (h : load p image = .ok (m, name)) : m = Memory.ofImage image := by
  by_cases short : image.length < 0x150
  · rw [load_of_short p short] at h
    cases h
  · have long : 0x150 ≤ image.length := Nat.le_of_not_lt short
    cases size : romSize p (image.getD 0x148 0#8) with
    | error e => rw [load_of_romSize_error long p size] at h; cases h
    | ok expected =>
      rw [load_of_romSize long p size] at h
      split at h
      · cases h
      split at h
      · cases h
      split at h
      · cases h
      split at h
      · cases h
      · cases h
        rfl

/-- A successful boot is the power-up with the image (70_reset_and_hazards.md R127). -/
theorem boot_ok {p : Params} {image : List Byte} {s : State} {name : List Byte} (h : boot p image = .ok (s, name)) :
    s = State.powerUp (Memory.ofImage image) := by
  cases loaded : load p image with
  | error e => simp [boot, loaded] at h
  | ok r =>
    obtain ⟨m, name'⟩ := r
    simp only [boot, loaded, Except.ok.injEq, Prod.mk.injEq] at h
    rw [← h.1, load_ok_mem loaded]

/-- The flag byte of the power-up state has a zero low nibble (10_state.md R15, R26). -/
theorem powerUp_flagNibbleClear (m : Memory) : FlagNibbleClear (State.powerUp m) :=
  show RegisterFile.powerUp.f &&& 0x0F#8 = 0#8 by decide

/-- Settles O44: the power-up state's flag byte, with a memory in canonical form. -/
theorem invariantHoldsAtPowerUp : Obligations.InvariantHoldsAtPowerUp := by
  refine ⟨⟨powerUp_flagNibbleClear _, Memory.absent_wf⟩, fun p image s name h => ?_⟩
  rw [boot_ok h]
  exact ⟨powerUp_flagNibbleClear _, Memory.ofImage_wf image⟩

/-- The pairs of the power-up register file (10_state.md R26). -/
theorem powerUp_pairs :
    readPair RegisterFile.powerUp .bc = 0x0013#16 ∧ readPair RegisterFile.powerUp .de = 0x00D8#16 ∧
      readPair RegisterFile.powerUp .hl = 0x014D#16 := by decide

/-- The flags of the power-up register file (10_state.md R26, decision D21). -/
theorem readFlag_powerUp (x : Flag) : readFlag x RegisterFile.powerUp.f = decide (x = .z) := by
  cases x <;> decide

/-- Settles O1: the register file is a constant, the memory is the one given. -/
theorem powerUpHasTheStatedValues : Obligations.PowerUpHasTheStatedValues := by
  intro m
  obtain ⟨bc, de, hl⟩ := powerUp_pairs
  exact ⟨rfl, bc, de, hl, readFlag_powerUp .z, readFlag_powerUp .n, readFlag_powerUp .h, readFlag_powerUp .c, rfl, rfl⟩

end Sys2Proof.Machine

/-! # Memory accesses, and the header validator (20_memory.md) -/

namespace Sys2Proof.Machine

/-! ## Steps of two machines that no address tells apart -/

section
variable {s t : State} (reads : ∀ addr, memRead t addr = memRead s addr)
include reads

/-- Equal reads find the same bytes in memory. -/
theorem bytesAt_of_reads {addr : Word} {bytes : List Byte} (h : BytesAt s addr bytes) : BytesAt t addr bytes := by
  induction bytes generalizing addr with
  | nil => trivial
  | cons v rest ih =>
    obtain ⟨first, others⟩ := h
    exact ⟨(reads addr).trans first, ih others⟩

variable (pc : t.regs.pc = s.regs.pc)
include pc

/-- A fetch that succeeds reads the encoding of its instruction, which stands at the same address in the other memory. -/
theorem fetchInstr_ok_of_reads {i : Instr} {s' : State} (h : fetchInstr s = .ok (i, s')) :
    fetchInstr t = .ok (i, t.setPc (t.regs.pc + BitVec.ofNat 16 i.length)) := by
  have encoded : BytesAt t s.regs.pc (encode i) := bytesAt_of_reads reads (bytesAt_of_fetchInstr h)
  rw [← pc] at encoded
  exact fetchInstr_of_bytesAt encoded

/-- A fetch that stops at an opcode without an entry stops in the other memory too. -/
theorem fetchInstr_unimplemented_of_reads {op : Byte} (read : memRead s s.regs.pc = .ok op) (absent : lookup op = none) :
    fetchInstr t = .error (.unimplementedOpcode op t.regs.pc) := by
  rw [fetchInstr_fetched (op := op) (by rw [pc, reads, read]), absent]

/-- A fetch that fails by one fault fails by the same in the other memory. -/
theorem fetchInstr_error_of_reads {cause : Fault} (h : fetchInstr s = .error cause) : fetchInstr t = .error cause := by
  have back : ∀ addr, memRead s addr = memRead t addr := fun addr => (reads addr).symm
  obtain ⟨i, op, -, -, hs⟩ | ⟨op, read, absent, hs⟩ | ⟨k, -, below, unread, hs⟩ := fetchInstr_cases s
  · rw [hs] at h
    cases h
  · rw [fetchInstr_unimplemented_of_reads reads pc read absent, pc, ← hs, h]
  · obtain ⟨i, op, -, -, ht⟩ | ⟨op, read, absent, ht⟩ | ⟨j, -, below', unread', ht⟩ := fetchInstr_cases t
    · rw [fetchInstr_ok_of_reads back pc.symm ht] at h
      cases h
    · rw [ht, pc, ← fetchInstr_unimplemented_of_reads back pc.symm read absent, h]
    · simp only [reads, pc] at below' unread' ht
      have same : j = k := by
        rcases Nat.lt_trichotomy j k with lt | eq | gt
        · obtain ⟨v, read⟩ := below j lt
          rw [unread'] at read
          cases read
        · exact eq
        · obtain ⟨v, read⟩ := below' k gt
          rw [unread] at read
          cases read
      rw [ht, same, ← hs, h]
end

/-- The registers after a meaning depend on the registers before it only. -/
theorem exec_regs_congr {i : Instr} {s t : State} (regs : s.regs = t.regs) :
    ∃ s' t', exec i s = .next s' ∧ exec i t = .next t' ∧ s'.regs = t'.regs := by
  obtain ⟨r, m, st⟩ := s
  obtain ⟨_, n, st'⟩ := t
  obtain rfl : r = _ := regs
  cases i with
  | nop => exact ⟨_, _, rfl, rfl, rfl⟩
  | decB => exact ⟨_, _, rfl, rfl, rfl⟩
  | ldHLd16 d16 => exact ⟨_, _, rfl, rfl, rfl⟩
  | xorA => exact ⟨_, _, rfl, rfl, rfl⟩
  | jpA16 a16 => exact ⟨_, _, rfl, rfl, rfl⟩
  | jrNZr8 r8 =>
    cases z : readFlag .z r.f with
    | true => exact ⟨_, _, exec_jrNZr8_notTaken r8 z, exec_jrNZr8_notTaken r8 z, rfl⟩
    | false => exact ⟨_, _, exec_jrNZr8_taken r8 z, exec_jrNZr8_taken r8 z, rfl⟩

/-- Two machines with equal registers, latch and reads step to equal registers, or stop by the same fault. -/
theorem step_of_reads {s t : State} (regs : s.regs = t.regs) (status : s.status = t.status)
    (reads : ∀ addr, memRead t addr = memRead s addr) :
    (∃ s' t', step s = .next s' ∧ step t = .next t' ∧ s'.regs = t'.regs) ∨
    (∃ cause, step s = .fault cause ∧ step t = .fault cause) := by
  have pc : t.regs.pc = s.regs.pc := by rw [regs]
  cases latch : s.status with
  | faulted cause => exact .inr ⟨cause, step_faulted latch, step_faulted (status ▸ latch)⟩
  | running =>
    rw [step_running latch, step_running (status ▸ latch)]
    cases fetched : fetchInstr s with
    | error cause => exact .inr ⟨cause, rfl, by rw [fetchInstr_error_of_reads reads pc fetched]⟩
    | ok r =>
      obtain ⟨i, s₁⟩ := r
      rw [fetchInstr_ok_of_reads reads pc fetched]
      have own := fetchInstr_ok_of_reads (fun _ => rfl) rfl fetched
      rw [fetched] at own
      cases own
      exact .inl (exec_regs_congr (by simp [regs]))

/-- Every address lies below 0x10000, so states that agree there read alike (20_memory.md R31). -/
theorem memRead_of_sameBelow64K {s t : State} (same : SameBelow64K s t) (addr : Word) :
    memRead t addr = memRead s addr := by
  have below : addr.toNat < 0x10000 := addr.isLt
  simp only [memRead_eq, same.exists_iff _ below, same.bytes _ below]

/-- Settles O50: reads are equal at every address, so the outcomes agree; no step writes the memory or the latch, so the
relation is kept. -/
theorem bytesAbove64KInfluenceNothing : Obligations.BytesAbove64KInfluenceNothing := by
  intro s t same
  obtain ⟨s', t', hs, ht, regs⟩ | ⟨cause, hs, ht⟩ :=
    step_of_reads same.regs same.status (memRead_of_sameBelow64K same)
  · obtain ⟨memS, statusS⟩ := step_next_mem hs
    obtain ⟨memT, statusT⟩ := step_next_mem ht
    have status : s'.status = t'.status := by rw [statusS, statusT, same.status]
    rw [hs, ht]
    refine ⟨⟨regs, status⟩, ?_⟩
    rintro _ _ ⟨⟩ ⟨⟩
    exact ⟨regs, status, by rw [memS, memT, same.variant], by rw [memS, memT]; exact same.exists_iff,
      by rw [memS, memT]; exact same.bytes⟩
  · rw [hs, ht]
    exact ⟨rfl, fun _ _ next => nomatch next⟩

/-! ## Memory accesses -/

/-- Settles O6: the memory of an image has its length and its bytes. -/
theorem readGivesTheByteOfTheImage : Obligations.ReadGivesTheByteOfTheImage := by
  intro image s addr mem
  rw [memRead_eq, mem, Memory.ofImage_length, Memory.byteAt_ofImage]
  constructor
  · intro v byte
    obtain ⟨below, -⟩ := List.getElem?_eq_some_iff.1 byte
    rw [if_pos below, List.getD_eq_getElem?_getD, byte, Option.getD_some]
  · intro outside
    rw [if_neg (Nat.not_lt.2 (List.getElem?_eq_none_iff.1 outside))]

/-- Every byte write faults (20_memory.md R34). -/
theorem memWrite_eq (s : State) (addr : Word) (v : Byte) : memWrite s addr v = .error (.writeToReadOnly addr v) := by
  simp [memWrite]

/-- Settles O7: the variant's write fails, and that failure is the fault. -/
theorem everyWriteFaults : Obligations.EveryWriteFaults := memWrite_eq

/-- Settles O8: the first byte access that faults is the outcome; two reads that succeed are joined. -/
theorem wordAccessesAreTwoByteAccesses : Obligations.WordAccessesAreTwoByteAccesses := by
  intro s addr
  refine ⟨fun lo hi low high => ⟨joinWord hi lo, by simp [memRead16, low, high], joinWord_toNat hi lo⟩,
    fun e low => by simp [memRead16, low], fun lo e low high => by simp [memRead16, low, high],
    fun v => ⟨loByte v, loByte_toNat v, by simp [memWrite16, memWrite_eq]⟩⟩

/-! ## The declared size -/

/-- Settles O12: the branches of `romSize` are the clauses. -/
theorem romSizeOfEveryCode : Obligations.RomSizeOfEveryCode := by
  intro p code
  refine ⟨fun small => ?_, rfl, rfl, rfl, fun large not52 not53 not54 => ?_⟩
  · rw [romSize, if_pos small, Nat.shiftLeft_eq]
  · rw [romSize, if_neg (Nat.not_le.2 large), if_neg not52, if_neg not53, if_neg not54]

/-! ## The checks of a load, in their order -/

/-- The checksum of an image in the closed form of 20_memory.md R46. -/
def imageChecksum (image : List Byte) : Byte :=
  BitVec.ofInt 8 (0 - ((((image.drop 0x134).take 25).map BitVec.toNat).sum : Int) - 25)

/-- The checksum loop computes the closed form. -/
theorem headerChecksum_eq_imageChecksum {image : List Byte} (long : 0x150 ≤ image.length) :
    headerChecksum (Memory.ofImage image) = imageChecksum image := by
  rw [headerChecksum_ofImage long, imageChecksum]
  simp only [Int.sub_eq_add_neg, BitVec.ofInt_add, BitVec.ofInt_neg, BitVec.ofInt_natCast, BitVec.sub_eq_add_neg,
    BitVec.ofInt_ofNat]

section
variable {p : Params} {image : List Byte} {expected : Nat} (long : 0x150 ≤ image.length)
  (size : romSize p (image.getD 0x148 0#8) = .ok expected)
include long size

/-- L3 (60_exceptions.md R104). -/
theorem load_of_tooLong (tooLong : expected < image.length) :
    load p image = .error (.imageTooLong image.length expected) := by
  rw [load_of_romSize long p size, if_pos tooLong]

variable (fits : image.length ≤ expected)
include fits

/-- L4 (60_exceptions.md R105). -/
theorem load_of_otherType (other : image.getD 0x147 0#8 ≠ 0#8) :
    load p image = .error (.unsupportedCartridgeType (image.getD 0x147 0#8)) := by
  rw [load_of_romSize long p size, if_neg (Nat.not_lt.2 fits), if_pos other]

variable (romOnly : image.getD 0x147 0#8 = 0#8)
include romOnly

/-- I1, at the lowest logo position that mismatches (60_exceptions.md R107). -/
theorem load_of_logoMismatch {i : Fin 48} (mismatch : logoMismatchAt p (Memory.ofImage image) = some i) :
    load p image = .error (.logoMismatch (BitVec.ofNat 16 (0x104 + i.val))) := by
  rw [load_of_romSize long p size, if_neg (Nat.not_lt.2 fits), if_neg (not_not.2 romOnly), mismatch]
  rfl

variable (logo : ∀ i : Fin 48, image.getD (0x104 + i.val) 0#8 = p.logo i)
include logo

/-- I2, with the computed and the stored value (60_exceptions.md R108). -/
theorem load_of_otherChecksum (other : image.getD 0x14D 0#8 ≠ imageChecksum image) :
    load p image = .error (.headerChecksumMismatch (imageChecksum image) (image.getD 0x14D 0#8)) := by
  rw [load_of_romSize long p size, if_neg (Nat.not_lt.2 fits), if_neg (not_not.2 romOnly),
    (logoMismatchAt_eq_none long p).2 logo, headerChecksum_eq_imageChecksum long, headerByte_checksum long]
  exact if_pos other.symm

/-- An image that fails no check loads (20_memory.md R38). -/
theorem load_of_checksPassed (checksum : image.getD 0x14D 0#8 = imageChecksum image) :
    load p image = .ok (Memory.ofImage image, title (Memory.ofImage image)) := by
  rw [load_of_romSize long p size, if_neg (Nat.not_lt.2 fits), if_neg (not_not.2 romOnly),
    (logoMismatchAt_eq_none long p).2 logo, headerChecksum_eq_imageChecksum long, headerByte_checksum long]
  exact if_neg (not_not.2 checksum.symm)
end

/-! ## Valid images -/

/-- A valid image loads. -/
theorem load_of_valid {p : Params} {image : List Byte} (valid : ValidImage p image) :
    load p image = .ok (Memory.ofImage image, title (Memory.ofImage image)) := by
  obtain ⟨expected, size, fits⟩ := valid.sizeKnown
  exact load_of_checksPassed valid.longEnough size fits valid.romOnlyType valid.logoEqual valid.checksumEqual

/-- An image that loads is valid: a check that failed would be reported. -/
theorem valid_of_load_ok {p : Params} {image : List Byte} {r : Memory × List Byte} (h : load p image = .ok r) :
    ValidImage p image := by
  have noError : ∀ e, load p image ≠ .error e := fun e failed => by rw [failed] at h; cases h
  have long : 0x150 ≤ image.length := by
    by_contra short
    exact noError _ (load_of_short p (Nat.lt_of_not_le short))
  cases size : romSize p (image.getD 0x148 0#8) with
  | error e => exact absurd (load_of_romSize_error long p size) (noError e)
  | ok expected =>
    have fits : image.length ≤ expected := by
      by_contra tooLong
      exact noError _ (load_of_tooLong long size (Nat.lt_of_not_le tooLong))
    have romOnly : image.getD 0x147 0#8 = 0#8 := by
      by_contra other
      exact noError _ (load_of_otherType long size fits other)
    have logo : ∀ i : Fin 48, image.getD (0x104 + i.val) 0#8 = p.logo i := by
      refine (logoMismatchAt_eq_none long p).1 (Option.eq_none_iff_forall_ne_some.2 fun i mismatch => ?_)
      exact noError _ (load_of_logoMismatch long size fits romOnly mismatch)
    have checksum : image.getD 0x14D 0#8 = imageChecksum image := by
      by_contra other
      exact noError _ (load_of_otherChecksum long size fits romOnly logo other)
    exact ⟨long, ⟨expected, size, fits⟩, romOnly, logo, checksum⟩

/-- Everything a successful load answers. -/
theorem load_ok_iff {p : Params} {image : List Byte} {m : Memory} {t : List Byte} :
    load p image = .ok (m, t) ↔ ValidImage p image ∧ m = Memory.ofImage image ∧ t = title (Memory.ofImage image) := by
  constructor
  · intro h
    have valid := valid_of_load_ok h
    cases (load_of_valid valid).symm.trans h
    exact ⟨valid, rfl, rfl⟩
  · rintro ⟨valid, rfl, rfl⟩
    exact load_of_valid valid

/-- Settles O10: a load succeeds exactly on a valid image, and the memory is then that image. -/
theorem loadAcceptsExactlyTheValidImages : Obligations.LoadAcceptsExactlyTheValidImages := by
  intro p image
  refine ⟨⟨fun ⟨_, h⟩ => valid_of_load_ok h, fun valid => ⟨_, load_of_valid valid⟩⟩, fun m t h => ?_⟩
  rw [load_ok_mem h]
  refine ⟨rfl, rfl, fun k v byte => ?_⟩
  rw [Memory.byteAt_ofImage, List.getD_eq_getElem?_getD, byte, Option.getD_some]

/-- Settles O13: too long is the third check; an image that fits and passes the others is valid. -/
theorem declaredSizeBoundsTheLengthFromAboveOnly : Obligations.DeclaredSizeBoundsTheLengthFromAboveOnly := by
  intro p image expected long size
  exact ⟨load_of_tooLong long size,
    fun fits romOnly logo checksum => ⟨_, load_of_checksPassed long size fits romOnly logo checksum⟩⟩

/-- Settles O14: another type fails the fourth check; an image that loads is valid. -/
theorem onlyCartridgeTypeZeroLoads : Obligations.OnlyCartridgeTypeZeroLoads := by
  intro p image expected long size fits
  refine ⟨load_of_otherType long size fits, fun m t h => ?_⟩
  obtain ⟨valid, rfl, -⟩ := load_ok_iff.1 h
  exact ⟨valid.romOnlyType, rfl⟩

/-! ## Images with a byte changed -/

/-- A change of one byte leaves every other byte. -/
theorem getD_set_of_ne (image : List Byte) {k j : Nat} (v : Byte) (other : k ≠ j) :
    (image.set k v).getD j 0#8 = image.getD j 0#8 := by
  rw [List.getD_eq_getElem?_getD, List.getElem?_set_ne other, List.getD_eq_getElem?_getD]

/-- The byte that was changed. -/
theorem getD_set_self {image : List Byte} {k : Nat} (v : Byte) (inside : k < image.length) :
    (image.set k v).getD k 0#8 = v := by
  rw [List.getD_eq_getElem?_getD, List.getElem?_set_self inside, Option.getD_some]

/-- A change outside a range leaves that part of the image. -/
theorem range_set {image : List Byte} {k start n : Nat} (v : Byte) (outside : k < start ∨ start + n ≤ k) :
    ((image.set k v).drop start).take n = (image.drop start).take n := by
  rcases outside with before | after
  · rw [List.drop_set_of_lt before]
  · rw [List.drop_set, if_neg (by omega), List.take_set_of_le (by omega)]

/-- The checksum depends on the bytes 0x134 to 0x14C only (20_memory.md R46). -/
theorem imageChecksum_set {image : List Byte} {k : Nat} (v : Byte) (outside : k < 0x134 ∨ 0x14D ≤ k) :
    imageChecksum (image.set k v) = imageChecksum image := by
  rw [imageChecksum, range_set v outside, imageChecksum]

/-- The title depends on the bytes 0x134 to 0x143 only (20_memory.md R47). -/
theorem title_set {image : List Byte} {k : Nat} (v : Byte) (long : 0x150 ≤ image.length)
    (outside : k < 0x134 ∨ 0x144 ≤ k) :
    title (Memory.ofImage (image.set k v)) = title (Memory.ofImage image) := by
  have long' : 0x150 ≤ (image.set k v).length := by rwa [List.length_set]
  rw [title_ofImage long', range_set v outside, title_ofImage long]

/-- The bytes a load checks are the logo, the type, the size code and the checksum; with the first three kept and a checksum
that fits, an image of the same length stays valid. -/
theorem valid_of_sameFields {p : Params} {image image' : List Byte} (valid : ValidImage p image)
    (length : image'.length = image.length)
    (same : ∀ j, (0x104 ≤ j ∧ j < 0x134) ∨ j = 0x147 ∨ j = 0x148 → image'.getD j 0#8 = image.getD j 0#8)
    (checksum : image'.getD 0x14D 0#8 = imageChecksum image') : ValidImage p image' where
  longEnough := length ▸ valid.longEnough
  sizeKnown := by rw [same 0x148 (by omega), length]; exact valid.sizeKnown
  romOnlyType := (same 0x147 (by omega)).trans valid.romOnlyType
  logoEqual i := (same _ (by have := i.isLt; omega)).trans (valid.logoEqual i)
  checksumEqual := checksum

/-- A change away from the type and the size code of a valid image leaves the first four checks passing. -/
theorem firstChecks_set {p : Params} {image : List Byte} {k : Nat} (valid : ValidImage p image) (v : Byte)
    (notType : k ≠ 0x147) (notSize : k ≠ 0x148) :
    ∃ expected, 0x150 ≤ (image.set k v).length ∧ romSize p ((image.set k v).getD 0x148 0#8) = .ok expected ∧
      (image.set k v).length ≤ expected ∧ (image.set k v).getD 0x147 0#8 = 0#8 := by
  obtain ⟨expected, size, fits⟩ := valid.sizeKnown
  rw [List.length_set, getD_set_of_ne image v notSize, getD_set_of_ne image v notType]
  exact ⟨expected, valid.longEnough, size, fits, valid.romOnlyType⟩

/-- Settles O15: the other logo bytes are unchanged, so the changed one is the lowest that mismatches. -/
theorem flippedLogoByteIsRefused : Obligations.FlippedLogoByteIsRefused := by
  intro p image i v valid other
  have hi := i.isLt
  have inside := valid.longEnough
  obtain ⟨expected, long, size, fits, romOnly⟩ :=
    firstChecks_set (k := 0x104 + i.val) valid v (by omega) (by omega)
  have changed : (image.set (0x104 + i.val) v).getD (0x104 + i.val) 0#8 = v := getD_set_self v (by omega)
  have below : ∀ j : Fin 48, j < i → (image.set (0x104 + i.val) v).getD (0x104 + j.val) 0#8 = p.logo j := by
    intro j lt
    rw [getD_set_of_ne image v (by omega), valid.logoEqual j]
  exact load_of_logoMismatch long size fits romOnly (logoMismatchAt_eq_some long p i (by rwa [changed]) below)

/-- Settles O16: the changed byte is outside the checksum range, so the computed value is still the old byte. -/
theorem flippedChecksumByteIsRefused : Obligations.FlippedChecksumByteIsRefused := by
  intro p image v valid other
  have inside := valid.longEnough
  obtain ⟨expected, long, size, fits, romOnly⟩ := firstChecks_set (k := 0x14D) valid v (by decide) (by decide)
  have logo : ∀ i : Fin 48, (image.set 0x14D v).getD (0x104 + i.val) 0#8 = p.logo i := by
    intro i
    have hi := i.isLt
    rw [getD_set_of_ne image v (by omega), valid.logoEqual i]
  have stored : (image.set 0x14D v).getD 0x14D 0#8 = v := getD_set_self v (by omega)
  have computed : imageChecksum (image.set 0x14D v) = image.getD 0x14D 0#8 :=
    (imageChecksum_set v (by omega)).trans valid.checksumEqual.symm
  have refused := load_of_otherChecksum long size fits romOnly logo (by rwa [stored, computed])
  rwa [stored, computed] at refused

/-- Settles O18: no such byte is a checked field, and none is in the title; one in the checksum range needs the checksum byte
that fits, which is itself outside that range. -/
theorem unlistedHeaderBytesAreNotChecked : Obligations.UnlistedHeaderBytesAreNotChecked := by
  intro p image k v valid
  have long := valid.longEnough
  have long' : 0x150 ≤ (image.set k v).length := by rwa [List.length_set]
  constructor
  · intro unlisted
    have valid' : ValidImage p ((image.set k v).set 0x14D (imageChecksum (image.set k v))) := by
      refine valid_of_sameFields valid (by rw [List.length_set, List.length_set]) (fun j field => ?_) ?_
      · rw [getD_set_of_ne _ _ (by omega), getD_set_of_ne _ _ (by omega)]
      · rw [getD_set_self _ (by omega)]
        exact (imageChecksum_set _ (by omega)).symm
    have sameTitle := (title_set (imageChecksum (image.set k v)) long' (k := 0x14D) (by omega)).trans
      (title_set v long (k := k) (by omega))
    exact ⟨_, _, _, _, load_of_valid valid, sameTitle ▸ load_of_valid valid'⟩
  · intro outside
    have valid' : ValidImage p (image.set k v) := by
      refine valid_of_sameFields valid List.length_set (fun j field => ?_) ?_
      · rw [getD_set_of_ne _ _ (by omega)]
      · rw [getD_set_of_ne _ _ (by omega), imageChecksum_set v (by omega)]
        exact valid.checksumEqual
    have sameTitle := title_set v long (k := k) (by omega)
    exact ⟨_, _, _, load_of_valid valid, sameTitle ▸ load_of_valid valid'⟩

/-! ## The title -/

/-- The bytes before the first one that fails a test: how many, that they pass it, and that the next one fails it. -/
theorem takeWhile_maximal (bytes : List Byte) (test : Byte → Bool) :
    (bytes.takeWhile test).length ≤ bytes.length ∧
    (∀ k, k < (bytes.takeWhile test).length → (bytes.takeWhile test).getD k 0#8 = bytes.getD k 0#8 ∧
      test ((bytes.takeWhile test).getD k 0#8) = true) ∧
    ((bytes.takeWhile test).length < bytes.length → test (bytes.getD (bytes.takeWhile test).length 0#8) = false) := by
  induction bytes with
  | nil => simp
  | cons v rest ih =>
    obtain ⟨short, passed, next⟩ := ih
    cases hv : test v with
    | false => simp [hv]
    | true =>
      simp only [List.takeWhile_cons, hv, if_true, List.length_cons]
      refine ⟨by omega, fun k hk => ?_, fun lt => by simpa using next (by omega)⟩
      cases k with
      | zero => simpa using hv
      | succ k => simpa using passed k (by omega)

/-- Settles O20: the title is the part of the 16 title bytes before the first zero. -/
theorem titleIsTheLongestPrefixWithoutZero : Obligations.TitleIsTheLongestPrefixWithoutZero := by
  intro p image m t h
  obtain ⟨valid, -, rfl⟩ := load_ok_iff.1 h
  have long := valid.longEnough
  have sixteen : ((image.drop 0x134).take 16).length = 16 := by rw [List.length_take, List.length_drop]; omega
  have byte : ∀ k, k < 16 → ((image.drop 0x134).take 16).getD k 0#8 = image.getD (0x134 + k) 0#8 := fun k hk => by
    simp [hk]
  obtain ⟨short, passed, next⟩ := takeWhile_maximal ((image.drop 0x134).take 16) (· != 0#8)
  rw [← title_ofImage long, sixteen] at short next
  rw [← title_ofImage long] at passed
  refine ⟨short, fun k hk => ?_, fun lt => ?_⟩
  · obtain ⟨same, nonzero⟩ := passed k hk
    exact ⟨same.trans (byte k (by omega)), by simpa using nonzero⟩
  · rw [← byte _ lt]
    simpa using next lt

end Sys2Proof.Machine

/-! # The instruction table, the decoder, the encoder and the assembler (30_encoding.md) -/

namespace Sys2Proof

/-! ## The decoder on bytes: what it accepts and what it rejects -/

/-- Everything a word fetch from a list can do: the list starts with the two bytes of the word, or it ends inside them. -/
theorem fetchWord_popByte_cases (bytes : List Byte) :
    (∃ v rest, bytes = loByte v :: hiByte v :: rest ∧ fetchWord popByte bytes = .ok (v, rest)) ∨
    (∃ v missing, missing ≠ [] ∧ bytes ++ missing = [loByte v, hiByte v] ∧
      fetchWord popByte bytes = .error .truncated) := by
  match bytes with
  | [] => exact .inr ⟨0#16, [loByte 0#16, hiByte 0#16], by simp, rfl, rfl⟩
  | [lo] => exact .inr ⟨joinWord 0#8 lo, [0#8], by simp, by simp, rfl⟩
  | lo :: hi :: rest => exact .inl ⟨joinWord hi lo, rest, by simp, rfl⟩

/-- What the decoder does with the bytes after an opcode of kind `k`: with the opcode they are the encoding of the
instruction it answers and the rest, or they end inside an instruction. -/
theorem decodeOperand_popByte_cases (k : OpKind) (bytes : List Byte) :
    (∃ i rest, k.row.opcode :: bytes = encode i ++ rest ∧ decodeOperand popByte k bytes = .ok (i, rest)) ∨
    (∃ i missing, missing ≠ [] ∧ k.row.opcode :: bytes ++ missing = encode i ∧
      decodeOperand popByte k bytes = .error .truncated) := by
  cases k with
  | nop => exact .inl ⟨.nop, bytes, rfl, rfl⟩
  | decB => exact .inl ⟨.decB, bytes, rfl, rfl⟩
  | xorA => exact .inl ⟨.xorA, bytes, rfl, rfl⟩
  | jrNZ =>
    cases bytes with
    | nil => exact .inr ⟨.jrNZr8 0#8, [0#8], by simp, rfl, rfl⟩
    | cons r8 rest => exact .inl ⟨.jrNZr8 r8, rest, rfl, rfl⟩
  | ldHL =>
    obtain ⟨v, rest, rfl, fetched⟩ | ⟨v, missing, nonempty, whole, fetched⟩ := fetchWord_popByte_cases bytes
    · exact .inl ⟨.ldHLd16 v, rest, rfl, by rw [decodeOperand, fetched]; rfl⟩
    · exact .inr ⟨.ldHLd16 v, missing, nonempty, congrArg _ whole, by rw [decodeOperand, fetched]; rfl⟩
  | jp =>
    obtain ⟨v, rest, rfl, fetched⟩ | ⟨v, missing, nonempty, whole, fetched⟩ := fetchWord_popByte_cases bytes
    · exact .inl ⟨.jpA16 v, rest, rfl, by rw [decodeOperand, fetched]; rfl⟩
    · exact .inr ⟨.jpA16 v, missing, nonempty, congrArg _ whole, by rw [decodeOperand, fetched]; rfl⟩

/-- Everything the decoder can answer: an instruction whose encoding the bytes start with, a first byte without an entry,
or bytes that end inside an instruction. -/
theorem decode_cases (bytes : List Byte) :
    (∃ i rest, bytes = encode i ++ rest ∧ decode bytes = .ok (i, rest)) ∨
    (∃ op rest, bytes = op :: rest ∧ lookup op = none ∧ decode bytes = .error (.unimplementedOpcode op)) ∨
    (∃ i missing, missing ≠ [] ∧ bytes ++ missing = encode i ∧ decode bytes = .error .truncated) := by
  cases bytes with
  | nil => exact .inr (.inr ⟨.nop, encode .nop, by simp [encode], rfl, rfl⟩)
  | cons op rest =>
    rw [decode_cons]
    cases entry : lookup op with
    | none => exact .inr (.inl ⟨op, rest, rfl, entry, rfl⟩)
    | some row =>
      obtain ⟨k, rfl, rfl⟩ := lookup_some entry
      simp only [OpKind.row_effect]
      exact (decodeOperand_popByte_cases k rest).imp_right .inr

/-- Decoding inverts encoding and leaves the bytes that follow. -/
theorem decode_encode (i : Instr) (rest : List Byte) : decode (encode i ++ rest) = .ok (i, rest) := by
  cases i <;> simp [encode, decode_cons, decodeOperand, fetchWord, popByte, Except.map]

/-- Settles O23, constructor by constructor in `decode_encode`. -/
theorem decodeOfEncodeIsTheInstruction : Obligations.DecodeOfEncodeIsTheInstruction := decode_encode

/-- The bytes of a decoded instruction are its encoding and the rest. -/
theorem eq_encode_append_of_decode {bytes rest : List Byte} {i : Instr} (h : decode bytes = .ok (i, rest)) :
    bytes = encode i ++ rest := by
  obtain ⟨j, rest', whole, answer⟩ | ⟨op, -, -, -, answer⟩ | ⟨j, missing, -, -, answer⟩ := decode_cases bytes <;>
    rw [answer] at h <;> cases h
  exact whole

/-- Settles O24: of the decoder's three answers only the first is an instruction. -/
theorem decodedBytesAreTheEncoding : Obligations.DecodedBytesAreTheEncoding :=
  fun _ _ _ => eq_encode_append_of_decode

/-- The decoder rejects a first byte without an entry, and nothing else so. -/
theorem decode_unimplemented_iff (bytes : List Byte) (op : Byte) :
    decode bytes = .error (.unimplementedOpcode op) ↔ (∃ rest, bytes = op :: rest) ∧ lookup op = none := by
  constructor
  · intro h
    obtain ⟨i, rest, -, answer⟩ | ⟨op', rest, first, absent, answer⟩ | ⟨i, missing, -, -, answer⟩ :=
      decode_cases bytes <;> rw [answer] at h <;> cases h
    exact ⟨⟨rest, first⟩, absent⟩
  · rintro ⟨⟨rest, rfl⟩, absent⟩
    rw [decode_cons, absent]

/-- The decoder misses bytes exactly where an encoding is cut short. Bytes that it answered otherwise would keep that
answer with the missing ones added, and `decode_encode` says what those decode to. -/
theorem decode_truncated_iff (bytes : List Byte) :
    decode bytes = .error .truncated ↔ ∃ i missing, missing ≠ [] ∧ bytes ++ missing = encode i := by
  obtain ⟨j, rest, rfl, answer⟩ | ⟨op, rest, rfl, absent, answer⟩ | ⟨j, missing, nonempty, whole, answer⟩ :=
    decode_cases bytes
  · refine iff_of_false (by simp [answer]) ?_
    rintro ⟨i, missing, nonempty, whole⟩
    have same := decode_encode j (rest ++ missing)
    rw [← List.append_assoc, whole, ← List.append_nil (encode i), decode_encode] at same
    have none_missing : [] = rest ++ missing := congrArg Prod.snd (Except.ok.inj same)
    exact nonempty (List.append_eq_nil_iff.1 none_missing.symm).2
  · refine iff_of_false (by simp [answer]) ?_
    rintro ⟨i, missing, -, whole⟩
    have same := decode_encode i []
    rw [List.append_nil, ← whole, List.cons_append, decode_cons, absent] at same
    cases same
  · exact iff_of_true answer ⟨j, missing, nonempty, whole⟩

/-- Settles O25, with the set of opcodes without an entry. -/
theorem decoderRejectsExactly : Obligations.DecoderRejectsExactly := fun bytes =>
  ⟨fun op => by rw [decode_unimplemented_iff, lookup_none_iff], decode_truncated_iff bytes⟩

/-- Settles O22: each word is the encoding of its instruction. -/
theorem wordsOfTheTableDecode : Obligations.WordsOfTheTableDecode :=
  ⟨decode_encode .nop [], decode_encode .decB [], decode_encode (.jrNZr8 0xFD#8) [],
    decode_encode (.ldHLd16 0x1234#16) [], decode_encode .xorA [], decode_encode (.jpA16 0x0150#16) [0xFF#8]⟩

/-! ## Building a table -/

/-- Building a table is refused when a key occurs twice. -/
theorem buildTable_eq_none_iff (rows : List Row) : buildTable rows = none ↔ ¬ (rows.map Row.opcode).Nodup := by
  simp [buildTable, keysDistinct]

/-- Settles O21: the shared key occurs twice in the list of keys. -/
theorem tableRejectsDuplicateKeys : Obligations.TableRejectsDuplicateKeys := by
  refine ⟨⟨rfl, by decide⟩, fun before middle after r q same => ?_⟩
  rw [buildTable_eq_none_iff]
  simp [List.nodup_append, same]

/-! ## The assembler -/

theorem assemble_jrNZ (at_ : Nat) (e : Int) :
    assemble at_ (.jrNZ e) = if -128 ≤ e ∧ e ≤ 127 then some (.jrNZr8 (BitVec.ofInt 8 e)) else none := by
  simp [assemble, Written.wellFormed, displacementInRange]

/-- A label is written for its displacement. -/
theorem assemble_jrNZLabel (at_ label : Nat) :
    assemble at_ (.jrNZLabel label) = assemble at_ (.jrNZ (labelDisplacement at_ label)) := rfl

theorem assemble_ldHL (at_ nn : Nat) :
    assemble at_ (.ldHL nn) = if nn ≤ 0xFFFF then some (.ldHLd16 (BitVec.ofNat 16 nn)) else none := by
  simp [assemble, Written.wellFormed]

theorem assemble_jp (at_ nn : Nat) :
    assemble at_ (.jp nn) = if nn ≤ 0xFFFF then some (.jpA16 (BitVec.ofNat 16 nn)) else none := by
  simp [assemble, Written.wellFormed]

/-- Every instruction is written in one way: its operand lies in the range of its written form. -/
theorem assemble_written (at_ : Nat) (i : Instr) : assemble at_ i.written = some i := by
  cases i with
  | nop => rfl
  | decB => rfl
  | xorA => rfl
  | jrNZr8 r8 =>
    have low : -128 ≤ r8.toInt := r8.le_toInt
    have high : r8.toInt ≤ 127 := r8.toInt_le
    rw [Instr.written, assemble_jrNZ, if_pos ⟨low, high⟩, BitVec.ofInt_toInt]
  | ldHLd16 d16 => rw [Instr.written, assemble_ldHL, if_pos (by omega), BitVec.ofNat_toNat, BitVec.setWidth_eq]
  | jpA16 a16 => rw [Instr.written, assemble_jp, if_pos (by omega), BitVec.ofNat_toNat, BitVec.setWidth_eq]

/-- A displacement in range assembles to the byte that reads back as it. -/
theorem assemble_jrNZ_inside (at_ : Nat) {e : Int} (inside : -128 ≤ e ∧ e ≤ 127) :
    ∃ d : Byte, assemble at_ (.jrNZ e) = some (.jrNZr8 d) ∧ d.toInt = e := by
  have reads : (BitVec.ofInt 8 e).toInt = e := BitVec.toInt_ofInt_eq_self (by decide) (by omega) (by omega)
  exact ⟨BitVec.ofInt 8 e, by rw [assemble_jrNZ, if_pos inside], reads⟩

theorem assemble_jrNZ_outside (at_ : Nat) {e : Int} (outside : e < -128 ∨ 127 < e) : assemble at_ (.jrNZ e) = none := by
  rw [assemble_jrNZ, if_neg (by omega)]

/-- A jump by a label's displacement, from the address after its operand, reaches the label. -/
theorem relativeTarget_of_labelDisplacement {at_ label : Nat} {d : Byte} (reads : d.toInt = labelDisplacement at_ label) :
    Machine.relativeTarget (BitVec.ofNat 16 (at_ + 2)) d = BitVec.ofNat 16 label := by
  have extended : Machine.sext16 d = BitVec.ofInt 16 (labelDisplacement at_ label) := by
    rw [← reads, ← Machine.sext16_toInt, BitVec.ofInt_toInt]
  have sum : ((at_ + 2 : Nat) : Int) + labelDisplacement at_ label = (label : Nat) := by
    rw [labelDisplacement]; omega
  rw [Machine.relativeTarget, extended, ← BitVec.ofInt_natCast, ← BitVec.ofInt_add, sum, BitVec.ofInt_natCast]

/-- Settles O26, form by form; a label is its displacement. -/
theorem assemblerKeepsTheRanges : Obligations.AssemblerKeepsTheRanges := by
  refine ⟨assemble_written, fun at_ e => ⟨assemble_jrNZ_inside at_, assemble_jrNZ_outside at_⟩,
    fun at_ nn => ⟨fun inside => ?_, fun outside => ?_⟩, fun at_ label => ⟨fun inside => ?_, fun outside => ?_⟩⟩
  · refine ⟨BitVec.ofNat 16 nn, ?_, by rw [assemble_ldHL, if_pos inside], by rw [assemble_jp, if_pos inside]⟩
    rw [BitVec.toNat_ofNat, Nat.mod_eq_of_lt (by omega)]
  · exact ⟨by rw [assemble_ldHL, if_neg (by omega)], by rw [assemble_jp, if_neg (by omega)]⟩
  · obtain ⟨d, assembled, reads⟩ := assemble_jrNZ_inside at_ inside
    exact ⟨d, (assemble_jrNZLabel at_ label).trans assembled, reads, relativeTarget_of_labelDisplacement reads⟩
  · exact (assemble_jrNZLabel at_ label).trans (assemble_jrNZ_outside at_ outside)

namespace Machine

/-! ## The step and the bytes at `pc` -/

/-- Settles O28: the opcode's lookup comes before any operand fetch. -/
theorem otherOpcodesAreUnimplemented : Obligations.OtherOpcodesAreUnimplemented := by
  intro op other
  have absent := (lookup_none_iff op).2 other
  refine ⟨absent, fun s running read => ?_⟩
  rw [step_running running, fetchInstr_fetched read, absent]

/-- A running machine with the encoding of an instruction at `pc` runs it with `pc` past its last byte. -/
theorem step_of_bytesAt {s : State} {i : Instr} (running : s.status = .running)
    (encoded : BytesAt s s.regs.pc (encode i)) : step s = exec i (s.setPc (s.regs.pc + BitVec.ofNat 16 i.length)) := by
  rw [step_running running, fetchInstr_of_bytesAt encoded]

/-- A byte placed at an address is read there. -/
theorem Memory.read_setByte_same {m : Memory} (wf : m.wf = true) (addr : Word) (v : Byte) :
    (m.setByte addr.toNat v).read addr = some v := by
  simp [Memory.read_eq, Memory.byteAt_setByte m _ _ v wf]

/-- A byte placed at another address changes no byte that is there to be read. -/
theorem Memory.read_setByte_other {m : Memory} (wf : m.wf = true) {addr other : Word} (ne : addr ≠ other) (v : Byte)
    {w : Byte} (read : m.read addr = some w) : (m.setByte other.toNat v).read addr = some w := by
  have ne' : addr.toNat ≠ other.toNat := fun h => ne (BitVec.eq_of_toNat_eq h)
  rw [Memory.read_eq, Option.ite_none_right_eq_some] at read
  obtain ⟨inside, byte⟩ := read
  rw [Memory.read_eq, if_pos (by rw [Memory.setByte_length]; omega), Memory.byteAt_setByte m _ _ v wf, if_neg ne', byte]

/-- Three bytes placed at different addresses are read there: none replaces another. -/
theorem Memory.read_setByte_three {m placed : Memory} (wf : m.wf = true) {a b c : Word} (ab : a ≠ b) (ac : a ≠ c)
    (bc : b ≠ c) {u v w : Byte} (eq : placed = ((m.setByte a.toNat u).setByte b.toNat v).setByte c.toNat w) :
    placed.read a = some u ∧ placed.read b = some v ∧ placed.read c = some w := by
  subst eq
  have wf₁ := m.setByte_wf a.toNat u wf
  have wf₂ := Memory.setByte_wf _ b.toNat v wf₁
  have first := Memory.read_setByte_other wf₁ ab v (Memory.read_setByte_same wf a u)
  exact ⟨Memory.read_setByte_other wf₂ ac w first, Memory.read_setByte_other wf₂ bc w (Memory.read_setByte_same wf₁ b v),
    Memory.read_setByte_same wf₂ c w⟩

/-- What the memory holds at an address is what a read of the state answers. -/
theorem memRead_of_read {s : State} {addr : Word} {v : Byte} (read : s.mem.read addr = some v) :
    memRead s addr = .ok v := by
  rw [memRead, read]

@[simp] theorem withFetchWord_regs (s : State) (nbits w : Nat) : (s.withFetchWord nbits w).regs = s.regs := rfl

@[simp] theorem withFetchWord_status (s : State) (nbits w : Nat) : (s.withFetchWord nbits w).status = .running := rfl

/-- The three bytes of a placed word stand at `pc`, also where the addresses wrap. -/
theorem bytesAt_withFetchWord {s : State} (wf : s.mem.wf = true) (nbits w : Nat) :
    BytesAt (s.withFetchWord nbits w) s.regs.pc (tableBytes nbits w) := by
  obtain ⟨first, second, third⟩ := Memory.read_setByte_three (placed := (s.withFetchWord nbits w).mem) wf
    (a := s.regs.pc) (b := s.regs.pc + 1#16) (c := s.regs.pc + 2#16) (by bv_omega) (by bv_omega) (by bv_omega) rfl
  refine ⟨memRead_of_read first, memRead_of_read second, ?_, trivial⟩
  rw [BitVec.add_assoc]
  exact memRead_of_read third

/-- A word that gives an instruction: the decoder reads it from the word's bytes. -/
theorem decode_of_decodeTableWord {nbits w : Nat} {i : Instr} (decoded : decodeTableWord nbits w = some i) :
    ∃ rest, decode (tableBytes nbits w) = .ok (i, rest) := by
  rw [decodeTableWord] at decoded
  split at decoded <;> cases decoded
  exact ⟨_, ‹_›⟩

/-- Settles O51: what the decoder reads from the word's bytes is encoded at their start (`eq_encode_append_of_decode`). -/
theorem placedWordIsTheNextInstruction : Obligations.PlacedWordIsTheNextInstruction := by
  intro s nbits w i wf decoded
  obtain ⟨rest, answer⟩ := decode_of_decodeTableWord decoded
  have placed := bytesAt_withFetchWord wf nbits w
  rw [eq_encode_append_of_decode answer] at placed
  exact ⟨step_of_bytesAt (withFetchWord_status s nbits w) (bytesAt_of_append placed), withFetchWord_regs s nbits w⟩

end Machine

end Sys2Proof

/-! # The step: the instruction it runs, the pseudocode it agrees with, the descriptor it hands out, its frame and its `pc`
(40_engine_step.md) -/

namespace Sys2Proof.Machine

/-! ## What a step can do -/

/-- A step on bytes that decode runs the decoded instruction with `pc` past its last byte (40_engine_step.md R75, R80). -/
theorem step_of_decode {s : State} {bytes rest : List Byte} {i : Instr} (running : s.status = .running)
    (stored : BytesAt s s.regs.pc bytes) (decoded : decode bytes = .ok (i, rest)) :
    step s = exec i (s.setPc (s.regs.pc + BitVec.ofNat 16 i.length)) := by
  rw [eq_encode_append_of_decode decoded] at stored
  exact step_of_bytesAt running (bytesAt_of_append stored)

/-- Settles O27: what the decoder reads from bytes is encoded at their start, and the step runs what is encoded at `pc`. -/
theorem stepRunsTheDecodedInstruction : Obligations.StepRunsTheDecodedInstruction :=
  fun _ _ _ _ => step_of_decode

/-- Everything a running machine's step can do: a next state, still running, or one of the two faults of a fetch
(40_engine_step.md R83). -/
theorem step_running_cases {s : State} (running : s.status = .running) :
    (∃ t, step s = .next t ∧ t.status = .running) ∨
    (∃ op pc0, step s = .fault (.unimplementedOpcode op pc0)) ∨
    (∃ addr, step s = .fault (.readOutOfRange addr)) := by
  rw [step_running running]
  obtain ⟨i, op, -, -, fetched⟩ | ⟨op, -, -, fetched⟩ | ⟨k, -, -, -, fetched⟩ := fetchInstr_cases s <;> rw [fetched]
  · obtain ⟨t, meaning, -, status⟩ := exec_next i (s.setPc (s.regs.pc + BitVec.ofNat 16 i.length))
    exact .inl ⟨t, meaning, status.trans running⟩
  · exact .inr (.inl ⟨op, _, rfl⟩)
  · exact .inr (.inr ⟨_, rfl⟩)

/-- Settles O31, by induction on the number of steps: a step that answers a next state leaves the machine running. -/
theorem runEndsOnlyByTwoFaults : Obligations.RunEndsOnlyByTwoFaults := by
  intro n
  induction n with
  | zero => exact fun s _ => .inl ⟨s, rfl⟩
  | succ n ih =>
    intro s running
    rw [run_succ]
    obtain ⟨t, next, running'⟩ | ⟨op, pc0, stop⟩ | ⟨addr, stop⟩ := step_running_cases running
    · rw [next]
      exact ih t running'
    · exact .inr (.inl ⟨op, pc0, by rw [stop]⟩)
    · exact .inr (.inr ⟨addr, by rw [stop]⟩)

/-! ## The step as the host sees it -/

section
variable (p : Params) {s : State}

theorem hostStep_faulted {cause : Fault} (latch : s.status = .faulted cause) : hostStep p s = .fault cause := by
  simp [hostStep, latch]

variable (running : s.status = .running)
include running

theorem hostStep_of_fetchError {cause : Fault} (fetched : fetchInstr s = .error cause) :
    hostStep p s = .fault cause := by
  simp [hostStep, running, fetched]

theorem hostStep_of_fetched {i : Instr} {s' t : State} (fetched : fetchInstr s = .ok (i, s'))
    (meaning : exec i s' = .next t) : hostStep p s = .next (i.descriptor p, t) := by
  simp [hostStep, running, fetched, meaning]
end

/-- Everything a step with its descriptor can do: the next state of the step with the descriptor of the opcode at `pc`, or
the fault of the step (40_engine_step.md R75 stage 5). -/
theorem hostStep_cases (p : Params) (s : State) :
    (∃ (i : Instr) (op : Byte) (t : State), memRead s s.regs.pc = .ok op ∧ lookup op = some i.kind.row ∧
      step s = .next t ∧ hostStep p s = .next (i.descriptor p, t)) ∨
    (∃ cause, step s = .fault cause ∧ hostStep p s = .fault cause) := by
  cases latch : s.status with
  | faulted cause => exact .inr ⟨cause, step_faulted latch, hostStep_faulted p latch⟩
  | running =>
    rw [step_running latch]
    cases fetched : fetchInstr s with
    | error cause => exact .inr ⟨cause, rfl, hostStep_of_fetchError p latch fetched⟩
    | ok r =>
      obtain ⟨i, s'⟩ := r
      obtain ⟨t, meaning, -⟩ := exec_next i s'
      have next : step s = .next t := by rw [step_running latch, fetched]; exact meaning
      obtain ⟨-, j, op, read, entry, fetched', -⟩ := step_next next
      cases fetched.symm.trans fetched'
      exact .inl ⟨i, op, t, read, entry, meaning, hostStep_of_fetched p latch fetched meaning⟩

/-- Settles O34: both steps answer together (`hostStep_cases`), and the row found for an opcode has it as its key. -/
theorem hostGetsTheMatchedDescriptor : Obligations.HostGetsTheMatchedDescriptor := by
  intro p s
  obtain ⟨i, op, t, read, entry, next, host⟩ | ⟨cause, stop, host⟩ := hostStep_cases p s
  · rw [next, host]
    refine ⟨?_, ?_, fun _ => iff_of_false nofun nofun⟩
    · rintro _ _ ⟨⟩
      obtain ⟨k, row, key⟩ := lookup_some entry
      have opcode : i.kind.row.opcode = op := by rw [row, key]
      exact ⟨rfl, op, i.kind.row, read, entry, rfl, opcode, congrArg p.cycles opcode⟩
    · rintro _ ⟨⟩
      exact ⟨_, rfl⟩
  · rw [stop, host]
    exact ⟨nofun, nofun, fun cause' => by simp⟩

/-! ## The spec's pseudocode -/

/-- The operand fetched for a kind of effect makes an instruction of that kind. -/
theorem kind_of_decodeOperand {k : OpKind} {s s' : State} {i : Instr}
    (operand : decodeOperand fetch8 k s = .ok (i, s')) : i.kind = k := by
  obtain ⟨j, kind, answer⟩ | ⟨-, -, answer⟩ | ⟨-, -, -, answer⟩ := decodeOperand_cases k s <;>
    cases answer.symm.trans operand
  exact kind

/-- `JR_NZ.effect()` tests Z after the fetch of its operand, as the meaning does (42_jumps.md R92). -/
theorem jrNZEffect_of_fetched {s s' t : State} {r8 : Byte} (fetched : fetch8 s = .ok (r8, s'))
    (meaning : exec (.jrNZr8 r8) s' = .next t) : Pseudocode.jrNZEffect s = .ok t := by
  rw [Pseudocode.jrNZEffect, fetched]
  cases z : s'.flag .z with
  | true =>
    cases (exec_jrNZr8_notTaken r8 z).symm.trans meaning
    simp [bind, Except.bind, z, pure, Except.pure]
  | false =>
    cases (exec_jrNZr8_taken r8 z).symm.trans meaning
    simp [bind, Except.bind, z, pure, Except.pure, relativeTarget]

/-- An effect that fetches its own operand does what the meaning does after the operand was fetched. -/
theorem effect_of_decodeOperand {k : OpKind} {s s' t : State} {i : Instr}
    (operand : decodeOperand fetch8 k s = .ok (i, s')) (meaning : exec i s' = .next t) :
    Pseudocode.effect k s = .ok t := by
  cases k with
  | nop => cases operand; cases meaning; rfl
  | decB => cases operand; cases meaning; rfl
  | xorA => cases operand; cases meaning; rfl
  | jrNZ =>
    cases fetched : fetch8 s <;> rw [decodeOperand, fetched] at operand <;> cases operand
    exact jrNZEffect_of_fetched fetched meaning
  | ldHL =>
    cases fetched : fetch16 s <;> rw [decodeOperand, ← fetch16, fetched] at operand <;> cases operand
    cases meaning
    rw [Pseudocode.effect, Pseudocode.ldHLEffect, fetched]
    rfl
  | jp =>
    cases fetched : fetch16 s <;> rw [decodeOperand, ← fetch16, fetched] at operand <;> cases operand
    cases meaning
    rw [Pseudocode.effect, Pseudocode.jpEffect, fetched]
    rfl

/-- An effect whose operand is not readable stops by the fault of that fetch. -/
theorem effect_of_decodeOperand_error {k : OpKind} {s : State} {cause : Fault}
    (operand : decodeOperand fetch8 k s = .error cause) : Pseudocode.effect k s = .error cause := by
  cases k with
  | nop => cases operand
  | decB => cases operand
  | xorA => cases operand
  | jrNZ =>
    cases fetched : fetch8 s <;> rw [decodeOperand, fetched] at operand <;> cases operand
    rw [Pseudocode.effect, Pseudocode.jrNZEffect, fetched]
    rfl
  | ldHL =>
    cases fetched : fetch16 s <;> rw [decodeOperand, ← fetch16, fetched] at operand <;> cases operand
    rw [Pseudocode.effect, Pseudocode.ldHLEffect, fetched]
    rfl
  | jp =>
    cases fetched : fetch16 s <;> rw [decodeOperand, ← fetch16, fetched] at operand <;> cases operand
    rw [Pseudocode.effect, Pseudocode.jpEffect, fetched]
    rfl

/-- The pseudocode's step stops at an opcode that is not readable. -/
theorem pseudocodeStep_of_readError {s : State} {cause : Fault} (unread : memRead s s.regs.pc = .error cause) :
    Pseudocode.step s = .error (.readOutOfRange s.regs.pc) := by
  rw [Pseudocode.step, fetch8_error unread]
  rfl

section
variable {s : State} {op : Byte} (read : memRead s s.regs.pc = .ok op)
include read

/-- The pseudocode's step stops at an opcode without an entry. -/
theorem pseudocodeStep_of_absent (absent : lookup op = none) :
    Pseudocode.step s = .error (.unimplementedOpcode op s.regs.pc) := by
  simp [Pseudocode.step, fetch8_ok read, absent, bind, Except.bind]

/-- The pseudocode's step at an opcode with an entry is the effect of its row. -/
theorem pseudocodeStep_of_entry {row : Row} (entry : lookup op = some row) :
    Pseudocode.step s = (Pseudocode.effect row.effect (s.setPc (s.regs.pc + 1#16))).map fun t => (row, t) := by
  simp only [Pseudocode.step, fetch8_ok read, bind, Except.bind, entry]
  cases Pseudocode.effect row.effect (s.setPc (s.regs.pc + 1#16)) <;> rfl
end

/-- Settles O33, in the order of the fetches: the opcode, its entry, the operand. -/
theorem stepAgreesWithThePseudocode : Obligations.StepAgreesWithThePseudocode := by
  intro p s running
  cases read : memRead s s.regs.pc with
  | error cause => rw [hostStep_of_fetchError p running (fetchInstr_error read), pseudocodeStep_of_readError read]
  | ok op =>
    have fetch := fetchInstr_fetched read
    cases entry : lookup op with
    | none =>
      rw [entry] at fetch
      rw [hostStep_of_fetchError p running fetch, pseudocodeStep_of_absent read entry]
    | some row =>
      rw [entry] at fetch
      rw [pseudocodeStep_of_entry read entry]
      cases operand : decodeOperand fetch8 row.effect (s.setPc (s.regs.pc + 1#16)) with
      | error cause =>
        rw [hostStep_of_fetchError p running (fetch.trans operand), effect_of_decodeOperand_error operand]
        rfl
      | ok r =>
        obtain ⟨i, s'⟩ := r
        obtain ⟨t, meaning, -⟩ := exec_next i s'
        rw [hostStep_of_fetched p running (fetch.trans operand) meaning, effect_of_decodeOperand operand meaning]
        obtain ⟨k, rfl, -⟩ := lookup_some entry
        rw [Instr.descriptor, kind_of_decodeOperand operand, OpKind.row_effect]
        rfl

/-! ## `pc` after a step -/

/-- Advancing `pc` is a sum modulo 2^16 (decision D5). -/
theorem pc_add_toNat (pc : Word) (n : Nat) : (pc + BitVec.ofNat 16 n).toNat = (pc.toNat + n) % 65536 := by
  rw [BitVec.toNat_add, BitVec.toNat_ofNat, Nat.add_mod_mod]

/-- The target of a relative jump is the sum with the signed displacement modulo 2^16 (decision D6). -/
theorem relativeTarget_toNat (pc : Word) (r8 : Byte) :
    ((relativeTarget pc r8).toNat : Int) = ((pc.toNat : Int) + r8.toInt) % 65536 := by
  have sum : relativeTarget pc r8 = BitVec.ofInt 16 ((pc.toNat : Int) + r8.toInt) := by
    rw [relativeTarget, BitVec.ofInt_add, ← sext16_toInt, BitVec.ofInt_toInt, BitVec.ofInt_natCast, BitVec.ofNat_toNat,
      BitVec.setWidth_eq]
  rw [sum, BitVec.toNat_ofInt]
  exact Int.toNat_of_nonneg (Int.emod_nonneg _ (by decide))

/-- Settles O35: the meaning of each instruction starts from `pc` past its last byte. -/
theorem pcAfterAStep : Obligations.PcAfterAStep := by
  intro s i running encoded
  rw [step_of_bytesAt running encoded]
  cases i with
  | nop => exact ⟨_, rfl, pc_add_toNat s.regs.pc 1⟩
  | decB => exact ⟨_, rfl, pc_add_toNat s.regs.pc 1⟩
  | xorA => exact ⟨_, rfl, pc_add_toNat s.regs.pc 1⟩
  | ldHLd16 d16 => exact ⟨_, rfl, pc_add_toNat s.regs.pc 3⟩
  | jpA16 a16 => exact ⟨_, rfl, rfl⟩
  | jrNZr8 r8 =>
    cases z : s.regs.f.getLsbD 7 with
    | true => exact ⟨_, exec_jrNZr8_notTaken r8 z, pc_add_toNat s.regs.pc 2⟩
    | false =>
      refine ⟨_, exec_jrNZr8_taken r8 z, ?_⟩
      have pastOperand := pc_add_toNat s.regs.pc 2
      have target := relativeTarget_toNat (s.regs.pc + 2#16) r8
      rw [pastOperand] at target
      exact target.trans (by push_cast; rw [Int.emod_add_emod])

/-! ## The frame of each instruction -/

/-- JR NZ,r8 writes `pc` only (42_jumps.md R92); not taken, it writes it as it was. -/
theorem exec_jrNZr8_setPc {r8 : Byte} {s t : State} (h : exec (.jrNZr8 r8) s = .next t) : ∃ pc, t = s.setPc pc := by
  cases z : s.flag .z with
  | true => cases (exec_jrNZr8_notTaken r8 z).symm.trans h; exact ⟨s.regs.pc, rfl⟩
  | false => cases (exec_jrNZr8_taken r8 z).symm.trans h; exact ⟨_, rfl⟩

/-- Settles O43: what no instruction writes is `exec_sameUntouched`; each constructor says what it writes itself. -/
theorem instructionsKeepTheirFrame : Obligations.InstructionsKeepTheirFrame := by
  intro i s
  obtain ⟨t, meaning, mem, -⟩ := exec_next i s
  refine ⟨t, meaning, exec_sameUntouched meaning, memRead_congr mem, ?_⟩
  cases i with
  | nop =>
    cases meaning
    exact ⟨fun _ => rfl, fun _ => rfl, fun _ => ⟨rfl, rfl⟩, fun _ _ => rfl, fun _ _ => rfl⟩
  | decB =>
    cases meaning
    exact ⟨fun _ => rfl, fun other => absurd rfl other, fun _ => ⟨rfl, rfl⟩, fun _ other => absurd rfl other, fun _ _ => rfl⟩
  | xorA =>
    cases meaning
    exact ⟨fun other => absurd rfl other, fun _ => rfl, fun _ => ⟨rfl, rfl⟩, fun other _ => absurd rfl other, fun _ _ => rfl⟩
  | ldHLd16 d16 =>
    cases meaning
    exact ⟨fun _ => rfl, fun _ => rfl, fun other => absurd rfl (other d16), fun _ _ => rfl, fun _ _ => rfl⟩
  | jpA16 a16 =>
    cases meaning
    exact ⟨fun _ => rfl, fun _ => rfl, fun _ => ⟨rfl, rfl⟩, fun _ _ => rfl, fun other _ => absurd rfl (other a16)⟩
  | jrNZr8 r8 =>
    obtain ⟨pc, rfl⟩ := exec_jrNZr8_setPc meaning
    exact ⟨fun _ => rfl, fun _ => rfl, fun _ => ⟨rfl, rfl⟩, fun _ _ => rfl, fun _ other => absurd rfl (other r8)⟩

end Sys2Proof.Machine

/-! # What each instruction does where it completes (41_nop.md) -/

namespace Sys2Proof.Machine

/-- Settles O36: the opcode is the whole encoding of NOP, so the step is NOP's meaning with `pc` past that one byte. -/
theorem nopDoesNothing : Obligations.NopDoesNothing := by
  intro s
  refine ⟨exec_nop s, fun running opcode => ?_⟩
  have encoded : BytesAt s s.regs.pc (encode .nop) := ⟨opcode, bytesAt_nil s _⟩
  calc step s
      _ = exec .nop (s.setPc (s.regs.pc + 1#16)) := step_of_bytesAt running encoded
      _ = .next (s.setPc (s.regs.pc + 1#16)) := exec_nop _

end Sys2Proof.Machine

/-! # The jumps (42_jumps.md) -/

namespace Sys2Proof.Machine

/-- Settles O37: the meaning of JP is the write of `pc`. -/
theorem jpWritesPcOnly : Obligations.JpWritesPcOnly := fun s a16 => exec_jpA16 a16 s

/-- Settles O38: Z is bit 7 of f; taken, the jump writes `pc` with `relativeTarget`, the sum modulo 2^16. -/
theorem jrNZAddsItsDisplacementWhenZIsClear : Obligations.JrNZAddsItsDisplacementWhenZIsClear := by
  intro s r8
  refine ⟨fun z => exec_jrNZr8_notTaken r8 z, fun z => ?_⟩
  exact ⟨relativeTarget s.regs.pc r8, relativeTarget_toNat s.regs.pc r8, exec_jrNZr8_taken r8 z⟩

/-- A state that steps to itself runs to itself in any number of steps. -/
theorem runsTo_self_of_step_self {s : State} (fixed : step s = .next s) (n : Nat) : RunsTo n s s := by
  induction n with
  | zero => exact run_zero s
  | succ n ih =>
    rw [RunsTo, run_succ, fixed]
    exact ih

/-- A jump to its own address steps to the state it started from: JP overwrites the `pc` that the fetch advanced
(42_jumps.md R91). -/
theorem step_jump_to_itself {s : State} (running : s.status = .running)
    (encoded : BytesAt s s.regs.pc (encode (.jpA16 s.regs.pc))) : step s = .next s :=
  calc step s
      _ = exec (.jpA16 s.regs.pc) (s.setPc (s.regs.pc + 3#16)) := step_of_bytesAt running encoded
      _ = .next ((s.setPc (s.regs.pc + 3#16)).setPc s.regs.pc) := exec_jpA16 ..
      _ = .next s := rfl

/-- Settles O49: the state is a fixed point of the step, so every run from it stays there and none faults. -/
theorem jumpToItselfRunsForever : Obligations.JumpToItselfRunsForever := by
  intro s running encoded
  have loop : ∀ n, RunsTo n s s := runsTo_self_of_step_self (step_jump_to_itself running encoded)
  exact ⟨fun n => ⟨s, loop n⟩, loop⟩

end Sys2Proof.Machine

/-! # The 8-bit ALU: XOR A, DEC B and the carry they never set (43_alu8.md) -/

namespace Sys2Proof.Machine

/-! ## The flag byte as a whole -/

/-- The four flags and the low nibble are the whole flag byte (10_state.md R14, R15). -/
theorem flagByte_ext {f g : Byte} (flags : ∀ x, readFlag x f = readFlag x g) (nibble : f &&& 0x0F#8 = g &&& 0x0F#8) :
    f = g := by
  have low : ∀ i, (0x0F#8).getLsbD i = true → f.getLsbD i = g.getLsbD i := fun i inside => by
    simpa only [BitVec.getLsbD_and, inside, Bool.and_true] using congrArg (·.getLsbD i) nibble
  apply BitVec.eq_of_getLsbD_eq
  intro i hi
  have bits : i = 0 ∨ i = 1 ∨ i = 2 ∨ i = 3 ∨ i = 4 ∨ i = 5 ∨ i = 6 ∨ i = 7 := by omega
  obtain rfl | rfl | rfl | rfl | rfl | rfl | rfl | rfl := bits
  · exact low 0 rfl
  · exact low 1 rfl
  · exact low 2 rfl
  · exact low 3 rfl
  · exact flags .c
  · exact flags .h
  · exact flags .n
  · exact flags .z

/-- Where the low nibble is zero, an xor whose result is zero leaves Z alone in the flag byte (43_alu8.md R96). -/
theorem xorFlags_zero_of_nibbleClear {f : Byte} (clear : f &&& 0x0F#8 = 0#8) : xorFlags 0#8 f = 0x80#8 := by
  refine flagByte_ext (fun x => ?_) ((xorFlags_lowNibble ..).trans clear)
  rw [readFlag_xorFlags]
  cases x <;> rfl

theorem readFlag_or (x : Flag) (f g : Byte) : readFlag x (f ||| g) = (readFlag x f || readFlag x g) :=
  BitVec.getLsbD_or

/-- Where the low nibble is zero, the flags of a decrement are the byte of 43_alu8.md R97. -/
theorem decFlags_of_nibbleClear {f : Byte} (clear : f &&& 0x0F#8 = 0#8) (p r : Byte) :
    decFlags p r f = (if r = 0#8 then 0x80#8 else 0#8) ||| 0x40#8 |||
      (if p &&& 0x0F#8 = 0#8 then 0x20#8 else 0#8) ||| (f &&& 0x10#8) := by
  refine flagByte_ext (fun x => ?_) ((decFlags_lowNibble ..).trans (clear.trans ?_))
  · simp only [readFlag_decFlags, readFlag_or, apply_ite (readFlag x)]
    cases x with
    | z => simp [readFlag, Flag.bit, Bool.beq_eq_decide_eq]
    | n => simp [readFlag, Flag.bit]
    | h => simp [readFlag, Flag.bit, decHalfCarry, Bool.beq_eq_decide_eq]
    | c => simp [readFlag, Flag.bit]
  · have carryMask : f &&& 0x10#8 &&& 0x0F#8 = 0#8 := by rw [BitVec.and_assoc]; exact BitVec.and_zero
    simp only [BitVec.and_or_distrib_right, carryMask]
    split_ifs <;> rfl

/-- A decrement gives zero from one only. -/
theorem aluDec_beq_zero (p : Byte) : (aluDec p == 0#8) = (p == 1#8) := by
  rw [Bool.eq_iff_iff, beq_iff_eq, beq_iff_eq]
  exact sub_eq_zero

/-- Settles O40: the result of `a ^ a` is zero, so Z is set; the other flags and the low nibble are those of an xor. -/
theorem xorAClearsAAndSetsZAlone : Obligations.XorAClearsAAndSetsZAlone := by
  intro s
  have meaning : exec .xorA s = .next ((s.setA 0#8).setF (xorFlags 0#8 s.regs.f)) := by
    rw [exec_xorA, aluXor, BitVec.xor_self]
  exact ⟨xorFlags 0#8 s.regs.f, meaning, readFlag_xorFlags .z .., readFlag_xorFlags .n .., readFlag_xorFlags .h ..,
    readFlag_xorFlags .c .., xorFlags_lowNibble .., xorFlags_zero_of_nibbleClear⟩

/-- Settles O41: b and f are the result and the flags of a decrement of b. -/
theorem decBDecrementsAndSetsItsFlags : Obligations.DecBDecrementsAndSetsItsFlags := by
  intro s
  refine ⟨aluDec s.regs.b, decFlags s.regs.b (aluDec s.regs.b) s.regs.f, exec_decB s, aluDec_toNat _, ?_, ?_, ?_, ?_,
    decFlags_lowNibble .., fun clear => decFlags_of_nibbleClear clear ..⟩
  · exact (readFlag_decFlags .z ..).trans (aluDec_beq_zero s.regs.b)
  · exact readFlag_decFlags .n ..
  · exact (readFlag_decFlags .h ..).trans (decHalfCarry_eq s.regs.b)
  · exact readFlag_decFlags .c ..

/-! ## DEC B repeated -/

/-- The first of `n + 1` executions, then the others. -/
theorem repeatExec_succ {i : Instr} {s t : State} (first : exec i s = .next t) (n : Nat) :
    repeatExec i (n + 1) s = repeatExec i n t := by
  rw [repeatExec, first]

/-- Settles O42, by induction on the number of executions, from any state: the first leaves b one less and C as it was. -/
theorem decBRepeatedCountsDown : Obligations.DecBRepeatedCountsDown := by
  intro n
  induction n with
  | zero =>
    intro s
    exact ⟨s.regs.b, s.regs.f, rfl, Nat.mod_eq_of_lt s.regs.b.isLt, rfl⟩
  | succ n ih =>
    intro s
    obtain ⟨b', f', others, count, carry⟩ :=
      ih ((s.setB (aluDec s.regs.b)).setF (decFlags s.regs.b (aluDec s.regs.b) s.regs.f))
    refine ⟨b', f', (repeatExec_succ (exec_decB s) n).trans others, ?_, carry.trans (readFlag_decFlags .c ..)⟩
    have first : (b'.toNat + n) % 256 = (s.regs.b.toNat + 255) % 256 := count.trans (aluDec_toNat s.regs.b)
    have bound : s.regs.b.toNat < 256 := s.regs.b.isLt
    omega

/-! ## The carry flag -/

/-- Settles O47: a step from C clear would have kept it clear. -/
theorem noStepSetsCarry : Obligations.NoStepSetsCarry := by
  intro s t h set
  cases before : s.flag .c with
  | true => rfl
  | false => cases (step_carryClear h before).symm.trans set

end Sys2Proof.Machine

/-! # The 16-bit load (44_load16.md) -/

namespace Sys2Proof.Machine

/-- A write of the pair hl is a write of `h` and `l`: the high byte to `h`, the low byte to `l` (10_state.md R13). -/
theorem setPair_hl (s : State) (v : Word) :
    s.setPair .hl v = { s with regs := { s.regs with h := hiByte v, l := loByte v } } := rfl

/-- Settles O39: the meaning of LD HL is the write of the pair hl, which splits the operand by `hiByte` and `loByte`. -/
theorem ldHLLoadsThePair : Obligations.LdHLLoadsThePair := by
  intro s d16
  refine ⟨hiByte d16, loByte d16, hiByte_toNat d16, loByte_toNat d16, ?_⟩
  rw [exec_ldHLd16, setPair_hl]

end Sys2Proof.Machine

/-! # Errors: the checks of a load and the fetches of a step in their order, and the finality of a fault
(60_exceptions.md) -/

namespace Sys2Proof.Machine

/-! ## The errors of a load -/

/-- The one error of `romSize` (60_exceptions.md R103). -/
theorem romSize_error {p : Params} {code : Byte} {e : LoadFault} (h : romSize p code = .error e) :
    e = .unknownRomSizeCode code := by
  rw [romSize] at h
  split_ifs at h
  cases h
  rfl

/-- L2, with the code (60_exceptions.md R103). -/
theorem load_of_unknownCode {p : Params} {image : List Byte} (long : 0x150 ≤ image.length) {e : LoadFault}
    (size : romSize p (image.getD 0x148 0#8) = .error e) :
    load p image = .error (.unknownRomSizeCode (image.getD 0x148 0#8)) :=
  romSize_error size ▸ load_of_romSize_error long p size

/-- Settles O11: the length is the first check. -/
theorem shortImageIsTooShortWhateverItHolds : Obligations.ShortImageIsTooShortWhateverItHolds :=
  fun p _ => load_of_short p

/-- Settles O17: each check's lemma takes the earlier checks as passed and says nothing of the later ones. -/
theorem loadReportsTheFirstFailedCheck : Obligations.LoadReportsTheFirstFailedCheck := by
  intro p image
  refine ⟨load_of_short p, fun long => ⟨fun e => load_of_unknownCode long, fun expected size => ?_⟩⟩
  refine ⟨load_of_tooLong long size, fun fits => ⟨load_of_otherType long size fits, fun romOnly => ⟨?_, ?_⟩⟩⟩
  · intro i differs below
    exact load_of_logoMismatch long size fits romOnly (logoMismatchAt_eq_some long p i differs below)
  · rintro logo _ rfl
    exact ⟨load_of_otherChecksum long size fits romOnly logo,
      fun checksum => ⟨_, load_of_checksPassed long size fits romOnly logo checksum⟩⟩

/-- Everything a failed load can report: L1 to L4, I1 and I2 (60_exceptions.md R102 to R105, R107, R108). -/
theorem load_error_cases {p : Params} {image : List Byte} {e : LoadFault} (h : load p image = .error e) :
    (∃ len, e = .imageTooShort len) ∨ (∃ code, e = .unknownRomSizeCode code) ∨
    (∃ len expected, e = .imageTooLong len expected) ∨ (∃ type, e = .unsupportedCartridgeType type) ∨
    (∃ addr, e = .logoMismatch addr) ∨ (∃ computed stored, e = .headerChecksumMismatch computed stored) := by
  by_cases short : image.length < 0x150
  · cases (load_of_short p short).symm.trans h
    exact .inl ⟨_, rfl⟩
  have long : 0x150 ≤ image.length := Nat.le_of_not_lt short
  cases size : romSize p (image.getD 0x148 0#8) with
  | error code =>
    cases (load_of_unknownCode long size).symm.trans h
    exact .inr (.inl ⟨_, rfl⟩)
  | ok expected =>
    rw [load_of_romSize long p size] at h
    split at h
    · cases h; exact .inr (.inr (.inl ⟨_, _, rfl⟩))
    split at h
    · cases h; exact .inr (.inr (.inr (.inl ⟨_, rfl⟩)))
    split at h
    · cases h; exact .inr (.inr (.inr (.inr (.inl ⟨_, rfl⟩))))
    split at h
    · cases h; exact .inr (.inr (.inr (.inr (.inr ⟨_, _, rfl⟩))))
    · cases h

/-- Every fault of a step is an ExecutionError (60_exceptions.md R101). -/
theorem errorClass_ofStep (cause : Fault) : (Cause.ofStep cause).errorClass = .executionError := by
  cases cause <;> rfl

/-- Settles O19: none of the six errors of a load is FileUnreadable, and each is of one of the two classes. -/
theorem errorsComeFromTheirOperations : Obligations.ErrorsComeFromTheirOperations := by
  refine ⟨fun p image e h => ?_, fun s cause _ => errorClass_ofStep cause⟩
  obtain ⟨len, rfl⟩ | ⟨code, rfl⟩ | ⟨len, expected, rfl⟩ | ⟨type, rfl⟩ | ⟨addr, rfl⟩ | ⟨computed, stored, rfl⟩ :=
    load_error_cases h
  · exact ⟨nofun, .inl rfl⟩
  · exact ⟨nofun, .inl rfl⟩
  · exact ⟨nofun, .inl rfl⟩
  · exact ⟨nofun, .inl rfl⟩
  · exact ⟨nofun, .inr rfl⟩
  · exact ⟨nofun, .inr rfl⟩

/-! ## The fetches of a step, in their order -/

section
variable {s : State} {e : Fault}

/-- A word fetch whose low byte is not readable. -/
theorem fetch16_low_error (low : memRead s s.regs.pc = .error e) : fetch16 s = .error (.readOutOfRange s.regs.pc) := by
  rw [fetch16, fetchWord, fetch8_error low]

/-- A word fetch whose high byte is not readable (decision D7: the second fetch). -/
theorem fetch16_high_error {lo : Byte} (low : memRead s s.regs.pc = .ok lo)
    (high : memRead s (s.regs.pc + 1#16) = .error e) : fetch16 s = .error (.readOutOfRange (s.regs.pc + 1#16)) := by
  have second := fetch8_error (s := s.setPc (s.regs.pc + 1#16)) high
  simp only [fetch16, fetchWord, fetch8_ok low, second, State.setPc_regs]

/-- An operand whose first byte is not readable. -/
theorem decodeOperand_first_error {k : OpKind} (operand : k ∈ [OpKind.jrNZ, .ldHL, .jp])
    (first : memRead s s.regs.pc = .error e) : decodeOperand fetch8 k s = .error (.readOutOfRange s.regs.pc) := by
  simp only [List.mem_cons, List.not_mem_nil, or_false] at operand
  obtain rfl | rfl | rfl := operand
  · rw [decodeOperand, fetch8_error first]; rfl
  · rw [decodeOperand, ← fetch16, fetch16_low_error first]; rfl
  · rw [decodeOperand, ← fetch16, fetch16_low_error first]; rfl

/-- A word operand whose second byte is not readable. -/
theorem decodeOperand_second_error {k : OpKind} (operand : k ∈ [OpKind.ldHL, .jp]) {lo : Byte}
    (first : memRead s s.regs.pc = .ok lo) (second : memRead s (s.regs.pc + 1#16) = .error e) :
    decodeOperand fetch8 k s = .error (.readOutOfRange (s.regs.pc + 1#16)) := by
  simp only [List.mem_cons, List.not_mem_nil, or_false] at operand
  obtain rfl | rfl := operand
  · rw [decodeOperand, ← fetch16, fetch16_high_error first second]; rfl
  · rw [decodeOperand, ← fetch16, fetch16_high_error first second]; rfl

/-- A step whose operand is not readable stops by the fault of that fetch (60_exceptions.md R112). -/
theorem step_of_operandError {k : OpKind} (running : s.status = .running)
    (opcode : memRead s s.regs.pc = .ok k.row.opcode)
    (operand : decodeOperand fetch8 k (s.setPc (s.regs.pc + 1#16)) = .error e) : step s = .fault e := by
  rw [step_running running, fetchInstr_fetched opcode]
  simp only [lookup_opcode, OpKind.row_effect, operand]
end

/-- Settles O29, in the order of the fetches: the opcode, the first operand byte, the second; the operand is fetched before
any flag is read. -/
theorem fetchOutOfRangeFaultsInOrder : Obligations.FetchOutOfRangeFaultsInOrder := by
  intro s running
  refine ⟨fun e unread => ?_, fun op e opcode operand unread => ?_, fun op lo e opcode operand low unread => ?_⟩
  · rw [step_running running, fetchInstr_error unread]
  · obtain ⟨k, kind, rfl⟩ := List.mem_map.1 (show op ∈ [OpKind.jrNZ, .ldHL, .jp].map fun k => k.row.opcode from operand)
    exact step_of_operandError running opcode (decodeOperand_first_error kind unread)
  · obtain ⟨k, kind, rfl⟩ := List.mem_map.1 (show op ∈ [OpKind.ldHL, .jp].map fun k => k.row.opcode from operand)
    have next : s.regs.pc + 2#16 = s.regs.pc + 1#16 + 1#16 := by rw [BitVec.add_assoc]; rfl
    rw [next] at unread ⊢
    exact step_of_operandError running opcode (decodeOperand_second_error kind low unread)

/-- Settles O30: a step that answers has fetched an instruction, and what is encoded at `pc` is fetched and has a meaning. -/
theorem stepSucceedsExactlyOnAnInstruction : Obligations.StepSucceedsExactlyOnAnInstruction := by
  intro s running
  constructor
  · rintro ⟨t, next⟩
    obtain ⟨-, i, -, -, -, fetched, -⟩ := step_next next
    exact ⟨i, bytesAt_of_fetchInstr fetched⟩
  · rintro ⟨i, encoded⟩
    obtain ⟨t, meaning, -⟩ := exec_next i (s.setPc (s.regs.pc + BitVec.ofNat 16 i.length))
    exact ⟨t, (step_of_bytesAt running encoded).trans meaning⟩

/-! ## The latch -/

/-- A fault is latched, and nothing else changes (60_exceptions.md R113). -/
theorem advance_of_fault {s : State} {cause : Fault} (stop : step s = .fault cause) :
    advance s = s.takeFault cause := by
  rw [advance, stop]

/-- A faulted machine answers the latched cause. -/
theorem step_takeFault (s : State) (cause : Fault) : step (s.takeFault cause) = .fault cause :=
  step_faulted (State.takeFault_status s cause)

/-- A faulted machine stays as it is: the cause it would latch is the one it holds (60_exceptions.md R120). -/
theorem advance_takeFault (s : State) (cause : Fault) : advance (s.takeFault cause) = s.takeFault cause :=
  advance_of_fault (step_takeFault s cause)

/-- Settles O32: the state with the fault latched is a fixed point of `advance`, and its step is the latched fault. -/
theorem faultIsFinal : Obligations.FaultIsFinal := by
  intro s cause stop
  rw [advance_of_fault stop]
  refine ⟨State.takeFault_status s cause, fun n => ⟨?_, ?_⟩⟩
  · exact Function.iterate_fixed (advance_takeFault s cause) n
  · rw [run_succ, step_takeFault]

end Sys2Proof.Machine

/-! # Power-up and the states reached from it (70_reset_and_hazards.md) -/

namespace Sys2Proof.Machine

/-! ## A machine without an image -/

/-- No address of the absent image is readable (20_memory.md R32, decision D4). -/
theorem memRead_absent {s : State} (mem : s.mem = Memory.absent) (addr : Word) :
    memRead s addr = .error (.readOutOfRange addr) := by
  rw [memRead_eq, mem]
  exact if_neg (Nat.not_lt_zero _)

/-- A running machine without an image stops at the fetch of its opcode (60_exceptions.md R111). -/
theorem step_absent {s : State} (running : s.status = .running) (mem : s.mem = Memory.absent) :
    step s = .fault (.readOutOfRange s.regs.pc) := by
  rw [step_running running, fetchInstr_error (memRead_absent mem s.regs.pc)]

/-- Settles O2: the reset state runs, has no image, and fetches at 0x0100. -/
theorem resetWithoutImageStopsAtItsFirstFetch : Obligations.ResetWithoutImageStopsAtItsFirstFetch :=
  ⟨rfl, step_absent (s := State.reset) rfl rfl⟩

/-! ## A machine that booted an image -/

/-- The power-up with an image is a machine that booted it: its register file is a constant whose flag byte has a zero low
nibble and C clear (10_state.md R26, decision D21). -/
theorem bootedWith_powerUp (image : List Byte) : BootedWith image (State.powerUp (Memory.ofImage image)) where
  mem := rfl
  running := rfl
  nibbleClear := powerUp_flagNibbleClear _
  carryClear := readFlag_powerUp .c
  c := rfl
  d := rfl
  e := rfl
  sp := rfl

/-- Settles O53: a successful boot is the power-up with the image. -/
theorem bootGivesABootedMachine : Obligations.BootGivesABootedMachine := by
  intro p image s name booted
  rw [boot_ok booted]
  exact bootedWith_powerUp image

/-- Only a valid image boots (70_reset_and_hazards.md R127, 20_memory.md R48). -/
theorem valid_of_boot_ok {p : Params} {image : List Byte} {r : State × List Byte} (h : boot p image = .ok r) :
    ValidImage p image := by
  cases loaded : load p image with
  | error e => rw [boot, loaded] at h; cases h
  | ok m => exact valid_of_load_ok loaded

/-- Settles O48: the boot gives a booted machine (O53), every step keeps it (O52), so the state reached is one too. -/
theorem reachableStatesOfALoadedMachine : Obligations.ReachableStatesOfALoadedMachine := by
  intro p image s t name n booted reached
  have start : BootedWith image s := bootGivesABootedMachine p image s name booted
  have kept : BootedWith image t := runsTo_induction (everyStepKeepsTheBootedMachine image) reached start
  obtain ⟨mem, running, nibbleClear, carryClear, c, d, e, sp⟩ := kept
  exact ⟨valid_of_boot_ok booted, mem, running, nibbleClear, carryClear, c, d, e, sp⟩

end Sys2Proof.Machine
